-- ==== Sys2Proof/Word.lean ====
section
/-! DEFINITION. The block's words: a segment, an identifier, a command word and a response word, each a parallel bit
vector whose bit 0 is its least significant bit (00_scope.md R3, R4, R7; 20_memory.md R21; 30_encoding.md R32, R33). -/

namespace Sys2Proof

/-- A segment, SEG_W = 8 bits, unsigned (00_scope.md R3). -/
abbrev Byte := BitVec 8

/-- An encoded identifier, ID_W = 64 bits, unsigned (00_scope.md R4). -/
abbrev Ident := BitVec 64

/-- A command word, CW_W = 68 bits (30_encoding.md R32). -/
abbrev CmdWord := BitVec 68

/-- A response word, RSP_W = 67 bits (30_encoding.md R33). -/
abbrev RspWord := BitVec 67

end Sys2Proof
end

