-- ==== Sys2Proof/Config.lean ====
section
/-! DEFINITION. What a block fixes: the scheme's constants (00_scope.md R2, R3) and the two implementation parameters
SEG_DEPTH and HAS_CAT (00_scope.md R5, R6). The spec leaves no value open beyond these two, so there is no free value. -/

namespace Sys2Proof

namespace Config

/-- FIRST_W: the width of the first segment's field (00_scope.md R2). -/
abbrev firstW : Nat := 7

/-- STRIDE_W: the width and the stride of every later segment's field (00_scope.md R2). -/
abbrev strideW : Nat := 3

/-- LEN_W: the width of the length field (00_scope.md R2; 90_conflicts.md C1). -/
abbrev lenW : Nat := 4

/-- FIRST_MAX: the bound of the first-segment check (00_scope.md R3). -/
abbrev firstMax : Nat := 127

end Config

/-- The implementation parameters of a block (00_scope.md section 5). -/
structure Params where
  /-- SEG_DEPTH: the number of lanes (R5). -/
  segDepth : Nat
  /-- HAS_CAT: whether the command CAT is present (R6). -/
  hasCat   : Bool
  deriving DecidableEq, Repr

/-- The values this spec takes: SEG_DEPTH = 15, HAS_CAT = 0 (00_scope.md R5, R6). -/
def Params.standard : Params := { segDepth := 15, hasCat := false }

/-- 15 ≤ SEG_DEPTH ≤ 255 (00_scope.md R5). -/
abbrev Params.Valid (p : Params) : Prop := 15 ≤ p.segDepth ∧ p.segDepth ≤ 255

/-- CNT_W = ceil(log2(SEG_DEPTH + 1)), the width of the count register (00_scope.md R5). -/
def Params.cntW (p : Params) : Nat := Nat.clog 2 (p.segDepth + 1)

end Sys2Proof
end

