-- ==== Sys2Proof/Machine/Operands.lean ====
section
/-! DEFINITION. The fields of a command word (30_encoding.md R32), its operand shapes (R34), and the zero extensions
by which a byte and the count enter 64-bit values (00_scope.md section 6). -/

namespace Sys2Proof.Machine

/-- `op = cmd[67:64]` (30_encoding.md R32). -/
def opField (w : CmdWord) : BitVec 4 := w.extractLsb' 64 4

/-- `arg = cmd[63:0]` (30_encoding.md R32). -/
def argField (w : CmdWord) : BitVec 64 := w.extractLsb' 0 64

/-- The command word `{op, arg}` (30_encoding.md R32): the opcode stands 64 bits above bit 0. -/
def cmdWord (op : BitVec 4) (arg : BitVec 64) : CmdWord := (op.setWidth 68 <<< 64) ||| arg.setWidth 68

/-- The byte operand `arg[7:0]`; `arg[63:8]` are ignored (30_encoding.md R34 shape a). -/
def byteOperand (w : CmdWord) : Byte := (argField w).extractLsb' 0 8

/-- The identifier operand, all of `arg` (30_encoding.md R34 shape b). -/
def identOperand (w : CmdWord) : Ident := argField w

/-- `zext_64` of a segment (00_scope.md section 6). -/
def zextSeg (v : Byte) : Ident := v.setWidth 64

/-- `zext_64(CNT)` (00_scope.md section 6): the count as a 64-bit value. A block's count is at most 255
(00_scope.md R5), so no bit of it is lost. -/
def zextCnt (n : Nat) : Ident := BitVec.ofNat 64 n

end Sys2Proof.Machine
end

