-- ==== Sys2Proof/Syntax.lean ====
section
/-! DEFINITION. The commands of the block, one constructor for each row of the opcode map (30_encoding.md R35), each
with the operand its shape gives it (R34). -/

namespace Sys2Proof

/-- The seven commands (30_encoding.md R35). The pseudo-command CLR is `.dec 0` (R42). -/
inductive Instr where
  /-- `NEW v` (40_path_ops.md R46). -/
  | new (v : Byte)
  /-- `PUSH v` (40_path_ops.md R47). -/
  | push (v : Byte)
  /-- `ENC` (41_encode.md R56). -/
  | enc
  /-- `DEC id` (42_decode.md R66). -/
  | dec (id : Ident)
  /-- `RDCNT` (40_path_ops.md R49). -/
  | rdcnt
  /-- `RDSEG k` (40_path_ops.md R50). -/
  | rdseg (k : Byte)
  /-- `CAT` (43_idconcat.md R76). -/
  | cat
  deriving DecidableEq, Repr

/-- The pseudo-command CLR, which is `DEC 0` (30_encoding.md R42). -/
abbrev Instr.clr : Instr := .dec 0

end Sys2Proof
end

