-- ==== Sys2Proof/WellFormed.lean ====
section
/-! DEFINITION. Which commands a block with given parameters has. The operands need no check: their types are the
widths of 30_encoding.md R34, and every value of them is accepted. -/

namespace Sys2Proof

/-- The command is present on a block with these parameters: every one is, but CAT only when HAS_CAT = 1
(30_encoding.md R35; 43_idconcat.md R75). -/
def Instr.wellFormed (p : Params) : Instr → Bool
  | .new _ => true
  | .push _ => true
  | .enc => true
  | .dec _ => true
  | .rdcnt => true
  | .rdseg _ => true
  | .cat => p.hasCat

end Sys2Proof
end

