-- ==== Sys2Proof/Decode.lean ====
section
/-! DEFINITION. From command words to commands and back (30_encoding.md R32, R34, R35, R40, R41). The decoder looks at
`cmd[67:64]` only and is total over the 2^68 words. -/

namespace Sys2Proof

open Sys2Proof.Machine

/-- Why a word is no command. -/
inductive DecodeError where
  /-- Its opcode is reserved on every block: 0x0 or 0x8 to 0xF (30_encoding.md R40). -/
  | reservedOpcode (op : BitVec 4)
  deriving DecidableEq, Repr

/-- What the decoder answers: a command, or the name of what is wrong. -/
inductive Decoded where
  | command (i : Instr)
  | rejected (e : DecodeError)
  deriving DecidableEq, Repr

/-- The opcode map (30_encoding.md R35). DESIGN CHOICE (log 7): opcode 0x7 decodes to CAT on every block, and CAT's
meaning answers Illegal where HAS_CAT = 0 (43_idconcat.md R75). -/
def decode (w : CmdWord) : Decoded :=
  match (opField w).toNat with
  | 1 => .command (.new (byteOperand w))
  | 2 => .command (.push (byteOperand w))
  | 3 => .command .enc
  | 4 => .command (.dec (identOperand w))
  | 5 => .command .rdcnt
  | 6 => .command (.rdseg (byteOperand w))
  | 7 => .command .cat
  | _ => .rejected (.reservedOpcode (opField w))

/-- The opcode of a command (30_encoding.md R35). -/
def Instr.opcode : Instr → BitVec 4
  | .new _ => 0x1#4
  | .push _ => 0x2#4
  | .enc => 0x3#4
  | .dec _ => 0x4#4
  | .rdcnt => 0x5#4
  | .rdseg _ => 0x6#4
  | .cat => 0x7#4

/-- The operand bits of a command; bits the command ignores are 0, as the assembler sets them (30_encoding.md R34,
R41). -/
def Instr.arg : Instr → BitVec 64
  | .new v => v.setWidth 64
  | .push v => v.setWidth 64
  | .enc => 0
  | .dec id => id
  | .rdcnt => 0
  | .rdseg k => k.setWidth 64
  | .cat => 0

/-- The command word `op` above `arg` (30_encoding.md R32). -/
def encode (i : Instr) : CmdWord := cmdWord i.opcode i.arg

/-- The bits of `arg` that a command of this operand shape reads (30_encoding.md R34). -/
def Instr.argMask : Instr → BitVec 64
  | .new _ => 0xFF#64
  | .push _ => 0xFF#64
  | .enc => 0
  | .dec _ => 0xFFFFFFFFFFFFFFFF#64
  | .rdcnt => 0
  | .rdseg _ => 0xFF#64
  | .cat => 0

/-- The command word whose `nbits` low bits are `w`, numbered as the opcode table numbers them: the table's bit n is
`cmd[n]`, since the word crosses the port in parallel and no byte order arises (20_memory.md R21). -/
def commandWord (nbits w : Nat) : CmdWord := BitVec.ofNat 68 (w % 2 ^ nbits)

/-- The command the decoder reads from the bits `w`: none where it refuses them, and none where a bit stands above the
68 of a command word. -/
def decodeTableWord (nbits w : Nat) : Option Instr :=
  if w % 2 ^ nbits < 2 ^ 68 then
    match decode (commandWord nbits w) with
    | .command i => some i
    | .rejected _ => none
  else none

end Sys2Proof
end

