-- ==== Sys2Proof/Machine/State.lean ====
section
/-! DEFINITION. The state of the block as plain data: the path store (10_state.md R10, R12), the parameters of the
block, and the command and response ports (30_encoding.md R31). The block has no memory, program counter, flag or mode
(10_state.md R14, R15; 20_memory.md R20). -/

namespace Sys2Proof.Machine

/-- The status of a response: exactly five values (60_exceptions.md R81; 93_implementation_defined.md U9). -/
inductive Status where
  /-- Success. -/
  | ok
  /-- `NEW v` with v > 127 (R82). -/
  | rangeExceeded
  /-- `PUSH` at CNT = SEG_DEPTH (R84). -/
  | full
  /-- `RDSEG k` with k ≥ CNT (R85). -/
  | index
  /-- A reserved opcode (R86). -/
  | illegal
  deriving DecidableEq, Repr

/-- What a response word holds (30_encoding.md R33). -/
structure Response where
  status : Status
  data   : Ident
  deriving DecidableEq, Repr

/-- The block's inputs in one clock cycle (30_encoding.md R31). -/
structure Cycle where
  rst      : Bool
  cmdValid : Bool
  cmd      : CmdWord
  deriving DecidableEq, Repr

/-- The state of the block and of its ports. -/
structure State where
  /-- SEG_DEPTH and HAS_CAT of this block; no step writes them (00_scope.md R5, R6; log 1). -/
  params : Params
  /-- The lanes `SEG[0]`, `SEG[1]`, … in order (10_state.md R10). -/
  seg    : List Byte
  /-- `CNT`, the length of the path (10_state.md R12; log 5). -/
  cnt    : Nat
  /-- The inputs of the clock cycles to come, the next one first (30_encoding.md R31; log 2). -/
  host   : List Cycle
  /-- The response port after the last cycle: `none` when `rsp_valid` = 0 (30_encoding.md R31; log 4). -/
  rsp    : Option Response
  deriving DecidableEq, Repr

/-- The block right after reset, at the parameter values this spec takes: the empty path, every lane 0, and no
response (70_reset_and_hazards.md R93). DESIGN CHOICE (log 3): the host has presented no further cycle. -/
def State.reset : State where
  params := Params.standard
  seg := List.replicate 15 0
  cnt := 0
  host := []
  rsp := none

/-- Why the block stops with a fault. It never does: every command is a total function answered by a response
(00_scope.md R9; 60_exceptions.md R80), so this type has no constructor (log 15). -/
inductive Fault where
  deriving DecidableEq, Repr

/-- Why the model gives no meaning. -/
inductive Refusal where
  /-- Raised only by an arm of exec for a command that has no meaning yet; no arm of this model raises it. Safe. -/
  | notModelled (mnemonic : String)
  deriving DecidableEq, Repr

end Sys2Proof.Machine
end

