-- ==== Sys2Proof/Machine/Ops.lean ====
section
/-! DEFINITION. The named operations over the path store and the ports: reading a lane and the path, loading a path,
appending a segment, responding, raising an error, reset, and taking the next cycle from the host. -/

namespace Sys2Proof.Machine

/-- `SEG[k]` (10_state.md R10). The spec names no lane at k ≥ SEG_DEPTH and no command reads one (R11); here it reads
0 (log 6). -/
def State.lane (s : State) (k : Nat) : Byte := s.seg.getD k 0

/-- The path `[SEG[0], …, SEG[CNT-1]]` (10_state.md R13). -/
def State.path (s : State) : List Byte := (List.range s.cnt).map s.lane

/-- All lanes of a store of this depth that holds `p`: lane k holds p's element k, and 0 from p's length on
(10_state.md R16; the last loop of 42_decode.md R66). -/
def lanesOf (depth : Nat) (p : List Byte) : List Byte := (List.range depth).map fun k => p.getD k 0

/-- Load a path into the store: every lane and CNT at once (20_memory.md R23; 42_decode.md R66). -/
def State.load (s : State) (p : List Byte) : State :=
  { s with seg := lanesOf s.params.segDepth p, cnt := p.length }

/-- `SEG[CNT] <- v`, `CNT <- CNT + 1` (40_path_ops.md R47). -/
def State.append (s : State) (v : Byte) : State :=
  { s with seg := s.seg.set s.cnt v, cnt := s.cnt + 1 }

/-- `respond(st, d)`: drive the response port (00_scope.md section 6; 30_encoding.md R33). -/
def State.respond (s : State) (st : Status) (d : Ident) : State := { s with rsp := some ⟨st, d⟩ }

/-- `raise X`, the block's one way of taking an error: no lane and not CNT is written, nothing is saved or latched,
and the response carries the status and data 0 (00_scope.md section 6; 60_exceptions.md R83). There is no return from
it (R89). -/
def State.raise (s : State) (e : Status) : State := s.respond e 0

/-- Reset: CNT and every lane become 0 and no response is produced (70_reset_and_hazards.md R93). -/
def State.applyReset (s : State) : State := { s.load [] with rsp := none }

/-- A cycle without a command: the store is held and `rsp_valid` = 0 (60_exceptions.md R92; 30_encoding.md R31). -/
def State.idle (s : State) : State := { s with rsp := none }

/-- A cycle in which the host presents nothing. -/
def Cycle.quiet : Cycle := { rst := false, cmdValid := false, cmd := 0 }

/-- A cycle in which the host presents a command word (70_reset_and_hazards.md R97). -/
def Cycle.command (w : CmdWord) : Cycle := { rst := false, cmdValid := true, cmd := w }

/-- A cycle in which the host applies reset (70_reset_and_hazards.md R97). -/
def Cycle.reset : Cycle := { rst := true, cmdValid := false, cmd := 0 }

/-- The inputs of the next cycle; a host that presents nothing more is quiet (70_reset_and_hazards.md R97; log 2). -/
def State.nextCycle (s : State) : Cycle := s.host.headD Cycle.quiet

/-- The state with the next cycle's inputs taken from the host. -/
def State.takeCycle (s : State) : State := { s with host := s.host.tail }

/-- The state in which the host presents this command word in the very next cycle. -/
def State.present (s : State) (w : CmdWord) : State := { s with host := Cycle.command w :: s.host }

end Sys2Proof.Machine
end

