-- ==== Sys2Proof/Machine/Flags.lean ====
section
/-! DEFINITION. The block has no flags (10_state.md R15): the only condition it reports is the status of a response.
Here are the status codes (60_exceptions.md R81) and the response word and valid bit as the port drives them
(30_encoding.md R31, R33). -/

namespace Sys2Proof.Machine

/-- The 3-bit status code (60_exceptions.md R81). -/
def Status.code : Status → BitVec 3
  | .ok => 0#3
  | .rangeExceeded => 1#3
  | .full => 2#3
  | .index => 3#3
  | .illegal => 4#3

/-- The response word: `rsp[66:64]` the status, `rsp[63:0]` the data (30_encoding.md R33). -/
def Response.word (r : Response) : RspWord := (r.status.code.setWidth 67 <<< 64) ||| r.data.setWidth 67

/-- `rsp_valid` (30_encoding.md R31). -/
def State.rspValid (s : State) : Bool := s.rsp.isSome

/-- `rsp`, meaningful only while `rsp_valid` = 1 (30_encoding.md R31). -/
def State.rspWord (s : State) : Option RspWord := s.rsp.map Response.word

end Sys2Proof.Machine
end

