-- ==== Sys2Proof/Machine/Concat.lean ====
section
/-! DEFINITION. The optional decimal concatenation, CAT (43_idconcat.md). -/

namespace Sys2Proof.Machine

/-- `dec(v)`: the decimal digits of a segment, most significant first, without leading zeros, and the one digit 0 for
0 (00_scope.md section 6; 43_idconcat.md R76). -/
def decDigits (v : Byte) : List Nat :=
  let n := v.toNat
  if n ≤ 9 then [n]
  else if n ≤ 99 then [n / 10, n % 10]
  else [n / 100, n / 10 % 10, n % 10]

/-- The natural number whose decimal digits these are; 0 for no digits (43_idconcat.md R76, R79: without a width). -/
def digitsValue (ds : List Nat) : Nat := ds.foldl (fun n d => 10 * n + d) 0

/-- The digit string of a path: its segments' digits one after another (43_idconcat.md R76). -/
def catDigits (p : List Byte) : List Nat := p.flatMap decDigits

/-- The decimal concatenation, 0 where it exceeds 2^64 - 1 (43_idconcat.md R76). -/
def catValue (p : List Byte) : Ident :=
  let n := digitsValue (catDigits p)
  if 2 ^ 64 - 1 < n then 0 else BitVec.ofNat 64 n

/-- `CAT` (43_idconcat.md R75, R76): Illegal on a block without it. -/
def execCat (s : State) : Host.Outcome State Fault Refusal :=
  if s.params.hasCat then .next (s.respond .ok (catValue s.path))
  else .next (s.raise .illegal)

end Sys2Proof.Machine
end

