-- ==== Sys2Proof/Machine/Packer.lean ====
section
/-! DEFINITION. The packer, ENC (41_encode.md). Nothing is masked on the way in (90_conflicts.md C2; log 8), and the
bits a 64-bit shift moves past bit 63 are lost (00_scope.md R4; log 9). -/

namespace Sys2Proof.Machine

/-- One iteration of step 3: `acc = (acc << 3) | zext_64(SEG[k])` (41_encode.md R56). -/
def packStep (acc : Ident) (v : Byte) : Ident := (acc <<< Config.strideW) ||| zextSeg v

/-- The accumulator after steps 2 and 3 (41_encode.md R56): it starts as the first segment, unmasked. -/
def packSegs : List Byte → Ident
  | [] => 0
  | first :: rest => rest.foldl packStep (zextSeg first)

/-- `PACK` (41_encode.md R55, R56): 0 for the empty path, else step 4, which shifts by LEN_W and ORs in the whole
length. -/
def pack : List Byte → Ident
  | [] => 0
  | first :: rest => (packSegs (first :: rest) <<< Config.lenW) ||| zextCnt (rest.length + 1)

/-- `ENC` (41_encode.md R56). -/
def execEnc (s : State) : Host.Outcome State Fault Refusal :=
  .next (s.respond .ok (pack s.path))

end Sys2Proof.Machine
end

