-- ==== Sys2Proof/Machine/PathOps.lean ====
section
/-! DEFINITION. The family of 40_path_ops.md: starting a path (NEW), appending to it (PUSH), and reading the store back
(RDCNT, RDSEG). -/

namespace Sys2Proof.Machine

/-- The first-segment range check `v ≤ 127` (40_path_ops.md R45). -/
def inRange (v : Byte) : Bool := decide (v.toNat ≤ Config.firstMax)

/-- `NEW v` (40_path_ops.md R46). -/
def execNew (v : Byte) (s : State) : Host.Outcome State Fault Refusal :=
  if inRange v then .next ((s.load [v]).respond .ok 0)
  else .next (s.raise .rangeExceeded)

/-- `PUSH v` (40_path_ops.md R47): the whole byte is stored, with no check, on the empty path too. -/
def execPush (v : Byte) (s : State) : Host.Outcome State Fault Refusal :=
  if s.cnt = s.params.segDepth then .next (s.raise .full)
  else .next ((s.append v).respond .ok 0)

/-- `RDCNT` (40_path_ops.md R49). -/
def execRdcnt (s : State) : Host.Outcome State Fault Refusal :=
  .next (s.respond .ok (zextCnt s.cnt))

/-- `RDSEG k` (40_path_ops.md R50). -/
def execRdseg (k : Byte) (s : State) : Host.Outcome State Fault Refusal :=
  if s.cnt ≤ k.toNat then .next (s.raise .index)
  else .next (s.respond .ok (zextSeg (s.lane k.toNat)))

end Sys2Proof.Machine
end

