-- ==== Sys2Proof/Machine/Unpacker.lean ====
section
/-! DEFINITION. The unpacker, DEC (42_decode.md). -/

namespace Sys2Proof.Machine

/-- The length field `id[3:0]` (30_encoding.md R36; 42_decode.md R66 step 1). -/
def lenField (id : Ident) : Nat := (id.extractLsb' 0 Config.lenW).toNat

/-- `zext_8(rem[6:0])`, the first segment's window (42_decode.md R66). -/
def firstWindow (rem : Ident) : Byte := (rem.extractLsb' 0 Config.firstW).setWidth 8

/-- `zext_8(rem[2:0])`, a later segment's field (42_decode.md R66). -/
def laterField (rem : Ident) : Byte := (rem.extractLsb' 0 Config.strideW).setWidth 8

/-- The countdown of step 2 (42_decode.md R66): the segments in extraction order, last appended first. The shift that
follows the extraction at index 0 is the argument `finalShift` (R69). -/
def extractSegs (finalShift : Nat) : Nat → Ident → List Byte
  | 0, _ => []
  | i + 1, rem =>
    if i = 0 then firstWindow rem :: extractSegs finalShift i (rem >>> finalShift)
    else laterField rem :: extractSegs finalShift i (rem >>> Config.strideW)

/-- The unpacker with a given shift after the last extraction (42_decode.md R66, R69). -/
def unpackWith (finalShift : Nat) (id : Ident) : List Byte :=
  (extractSegs finalShift (lenField id) (id >>> Config.lenW)).reverse

/-- `UNPACK` (42_decode.md R65, R66): the final shift is by 3, as the rule keeps it. -/
def unpack (id : Ident) : List Byte := unpackWith Config.strideW id

/-- `DEC id` (42_decode.md R66): the result replaces the path, in every lane and in CNT. -/
def execDec (id : Ident) (s : State) : Host.Outcome State Fault Refusal :=
  .next ((s.load (unpack id)).respond .ok 0)

end Sys2Proof.Machine
end

