-- ==== Sys2Proof/Machine/Dispatch.lean ====
section
/-! DEFINITION. One arm for each command (30_encoding.md R35), each one call of its meaning. -/

namespace Sys2Proof.Machine

def exec (i : Instr) (s : State) : Host.Outcome State Fault Refusal :=
  match i with
  | .new v => Sys2Proof.Machine.execNew v s
  | .push v => Sys2Proof.Machine.execPush v s
  | .enc => Sys2Proof.Machine.execEnc s
  | .dec id => Sys2Proof.Machine.execDec id s
  | .rdcnt => Sys2Proof.Machine.execRdcnt s
  | .rdseg k => Sys2Proof.Machine.execRdseg k s
  | .cat => Sys2Proof.Machine.execCat s

end Sys2Proof.Machine
end

