-- ==== Sys2Proof/Machine/Cycle.lean ====
section
/-! DEFINITION. What the block does in one clock cycle (30_encoding.md R30, R31): reset, which has priority; or one
command word, decoded and executed in one indivisible step; or nothing. -/

namespace Sys2Proof.Machine

/-- Execute one command word (30_encoding.md R30); a reserved opcode is answered Illegal (R40; 60_exceptions.md
R86). -/
def runWord (w : CmdWord) (s : State) : Host.Outcome State Fault Refusal :=
  match decode w with
  | .command i => exec i s
  | .rejected _ => .next (s.raise .illegal)

/-- One cycle with these inputs, on the state from whose host they were taken: `rst` has priority over `cmd_valid`
(30_encoding.md R31; 70_reset_and_hazards.md R93). -/
def runCycle (c : Cycle) (s : State) : Host.Outcome State Fault Refusal :=
  if c.rst then .next s.applyReset
  else if c.cmdValid then runWord c.cmd s
  else .next s.idle

end Sys2Proof.Machine
end

