-- ==== Sys2Proof/Machine/Step.lean ====
section
/-! DEFINITION. One step of the machine: the next clock cycle the host presents. -/

namespace Sys2Proof.Machine

/-- One step: take the next cycle's inputs from the host and run the cycle (30_encoding.md R30, R31). -/
def step (s : State) : Host.Outcome State Fault Refusal := runCycle s.nextCycle s.takeCycle

/-- The state whose very next step runs the command word with these bits: the host presents it next. The block loads
no program (10_state.md R14), so nothing else is set (log 3). -/
def State.withFetchWord (s : State) (nbits w : Nat) : State := s.present (commandWord nbits w)

end Sys2Proof.Machine
end

