-- ==== Sys2Proof/Machine/Assembler.lean ====
section
/-! DEFINITION. The textual form of commands (30_encoding.md R41), the pseudo-command CLR and the notation PATH (R42).
A line is a list of characters. -/

namespace Sys2Proof.Machine

/-- Why a line does not assemble. -/
inductive AsmError where
  /-- Its first word is no mnemonic of the opcode map and not CLR. -/
  | unknownMnemonic
  /-- A byte or identifier operand is missing. -/
  | missingOperand
  /-- There are more words than the command takes. -/
  | extraOperand
  /-- The operand is no decimal number and no `0x` hexadecimal number. -/
  | badNumber
  /-- A byte operand above 255 or an identifier operand above 2^64 - 1 (30_encoding.md R41). -/
  | outOfRange
  deriving DecidableEq, Repr

/-- The text before the comment: a comment runs from `;` to the end of the line (30_encoding.md R41). -/
def stripComment (line : List Char) : List Char := line.takeWhile fun c => c ≠ ';'

/-- The words of a text, separated by spaces and tabs (log 16). -/
def splitWords : List Char → List (List Char)
  | [] => []
  | c :: rest =>
    if c = ' ' ∨ c = '\t' then splitWords rest
    else
      match rest, splitWords rest with
      | [], _ => [[c]]
      | d :: _, ws =>
        if d = ' ' ∨ d = '\t' then [c] :: ws
        else
          match ws with
          | w :: more => (c :: w) :: more
          | [] => [[c]]

/-- The value of a decimal digit. -/
def decimalDigit (c : Char) : Option Nat :=
  if '0'.toNat ≤ c.toNat ∧ c.toNat ≤ '9'.toNat then some (c.toNat - '0'.toNat) else none

/-- The value of a hexadecimal digit, in either case (log 16). -/
def hexDigit (c : Char) : Option Nat :=
  if '0'.toNat ≤ c.toNat ∧ c.toNat ≤ '9'.toNat then some (c.toNat - '0'.toNat)
  else if 'A'.toNat ≤ c.toNat ∧ c.toNat ≤ 'F'.toNat then some (c.toNat - 'A'.toNat + 10)
  else if 'a'.toNat ≤ c.toNat ∧ c.toNat ≤ 'f'.toNat then some (c.toNat - 'a'.toNat + 10)
  else none

/-- The digits of a number in a base, continuing from `n`. -/
def parseDigits (base : Nat) (digit : Char → Option Nat) : Nat → List Char → Option Nat
  | n, [] => some n
  | n, c :: rest =>
    match digit c with
    | some d => parseDigits base digit (base * n + d) rest
    | none => none

/-- A number, decimal or `0x` hexadecimal (30_encoding.md R41), with at least one digit. -/
def parseNumber : List Char → Option Nat
  | [] => none
  | [c] => parseDigits 10 decimalDigit 0 [c]
  | c :: d :: rest =>
    if c = '0' ∧ d = 'x' then
      match rest with
      | [] => none
      | _ :: _ => parseDigits 16 hexDigit 0 rest
    else parseDigits 10 decimalDigit 0 (c :: d :: rest)

/-- What a mnemonic stands for: a command that takes no operand, a byte, or an identifier (30_encoding.md R34, R35). -/
inductive AsmShape where
  | none (i : Instr)
  | byte (op : Byte → Instr)
  | ident (op : Ident → Instr)

/-- The mnemonics, in upper case (30_encoding.md R35, R41), and CLR (R42). -/
def mnemonicShape (word : List Char) : Option AsmShape :=
  if word = ['N', 'E', 'W'] then some (.byte .new)
  else if word = ['P', 'U', 'S', 'H'] then some (.byte .push)
  else if word = ['E', 'N', 'C'] then some (.none .enc)
  else if word = ['D', 'E', 'C'] then some (.ident .dec)
  else if word = ['R', 'D', 'C', 'N', 'T'] then some (.none .rdcnt)
  else if word = ['R', 'D', 'S', 'E', 'G'] then some (.byte .rdseg)
  else if word = ['C', 'A', 'T'] then some (.none .cat)
  else if word = ['C', 'L', 'R'] then some (.none .clr)
  else none

/-- The command of a number given to an operand shape with `width` bits: an error where it does not fit
(30_encoding.md R41). -/
def numberOperand (width : Nat) (op : BitVec width → Instr) (word : List Char) : Except AsmError Instr :=
  match parseNumber word with
  | none => .error .badNumber
  | some n => if n < 2 ^ width then .ok (op (BitVec.ofNat width n)) else .error .outOfRange

/-- The command of the words of a line. -/
def parseWords (shape : AsmShape) (operands : List (List Char)) : Except AsmError Instr :=
  match shape, operands with
  | .none i, [] => .ok i
  | .none _, _ :: _ => .error .extraOperand
  | .byte _, [] => .error .missingOperand
  | .ident _, [] => .error .missingOperand
  | .byte op, [w] => numberOperand 8 op w
  | .ident op, [w] => numberOperand 64 op w
  | .byte _, _ :: _ :: _ => .error .extraOperand
  | .ident _, _ :: _ :: _ => .error .extraOperand

/-- One line: its command, or `none` where it holds no word before its comment. -/
def parseLine (line : List Char) : Except AsmError (Option Instr) :=
  match splitWords (stripComment line) with
  | [] => .ok none
  | m :: operands =>
    match mnemonicShape m with
    | none => .error .unknownMnemonic
    | some shape => (parseWords shape operands).map some

/-- One line assembled to its command word, ignored operand bits 0 (30_encoding.md R41). -/
def assembleLine (line : List Char) : Except AsmError (Option CmdWord) :=
  (parseLine line).map fun o => o.map encode

/-- The notation `PATH [s0, s1, …]`: NEW s0, PUSH s1, … (30_encoding.md R42); no command for the empty list. -/
def pathCommands : List Byte → List Instr
  | [] => []
  | first :: rest => .new first :: rest.map .push

end Sys2Proof.Machine
end

