-- ==== Sys2Proof/Safety.lean ====
section
/-! DEFINITION. The terms claims are stated in: the store's invariants (10_state.md R16), paths in contract
(00_scope.md section 7), canonical identifiers (30_encoding.md R39), the packer of variant U2
(93_implementation_defined.md), and the block seen as a function of the abstract path (10_state.md R13). -/

namespace Sys2Proof

open Sys2Proof.Machine

/-- The invariants of the store (10_state.md R16): parameters in range, SEG_DEPTH lanes, CNT at most SEG_DEPTH, and 0
in every lane from CNT on. -/
abbrev Machine.State.Inv (s : State) : Prop :=
  s.params.Valid ∧ s.seg.length = s.params.segDepth ∧ s.cnt ≤ s.params.segDepth ∧
    ∀ k, k < s.params.segDepth → s.cnt ≤ k → s.lane k = 0

/-- A path in contract: at most 15 segments, the first at most 127, every later one at most 7 (00_scope.md
section 7). -/
def InContract : List Byte → Bool
  | [] => true
  | first :: rest => decide (rest.length + 1 ≤ 15) && decide (first.toNat ≤ 127) && rest.all fun v => decide (v.toNat ≤ 7)

/-- A canonical identifier: 0, or length field L ≥ 1 and nothing above the lane 0 field (30_encoding.md R39). -/
def Canonical (id : Ident) : Prop := id = 0 ∨ (1 ≤ lenField id ∧ id.toNat < 2 ^ (3 * lenField id + 8))

/-- Step 3 under the variant MASK_ON_PACK of 93_implementation_defined.md U2: `SEG[k][2:0]` in place of `SEG[k]`. The
block does not do this (log 8). -/
def maskedPackStep (acc : Ident) (v : Byte) : Ident := (acc <<< Config.strideW) ||| (v.extractLsb' 0 3).setWidth 64

/-- The packer under the variant MASK_ON_PACK of 93_implementation_defined.md U2: 41_encode.md R56 with `SEG[0][6:0]` in
step 2 and `SEG[k][2:0]` in step 3. The block packs by `pack` (log 8). -/
def maskedPack : List Byte → Ident
  | [] => 0
  | first :: rest =>
    (rest.foldl maskedPackStep ((first.extractLsb' 0 7).setWidth 64) <<< Config.lenW) ||| zextCnt (rest.length + 1)

/-- The block as a function of the abstract path (10_state.md R13): the path after a command and its response. -/
def pathExec (p : Params) (path : List Byte) : Instr → List Byte × Response
  | .new v => if v.toNat ≤ 127 then ([v], ⟨.ok, 0⟩) else (path, ⟨.rangeExceeded, 0⟩)
  | .push v => if path.length < p.segDepth then (path ++ [v], ⟨.ok, 0⟩) else (path, ⟨.full, 0⟩)
  | .enc => (path, ⟨.ok, pack path⟩)
  | .dec id => (unpack id, ⟨.ok, 0⟩)
  | .rdcnt => (path, ⟨.ok, BitVec.ofNat 64 path.length⟩)
  | .rdseg k =>
    match path[k.toNat]? with
    | some v => (path, ⟨.ok, v.setWidth 64⟩)
    | none => (path, ⟨.index, 0⟩)
  | .cat => if p.hasCat then (path, ⟨.ok, catValue path⟩) else (path, ⟨.illegal, 0⟩)

end Sys2Proof
end

