-- ==== Sys2Proof/Certificates/Slice0/Obligations.lean ====
section
/-! DEFINITION. The statements about the RPC bit-packer that the provers settle. Each docstring names the rules of spec/
it formalises. In them a cycle that presents a command has `rst` = 0 and `cmd_valid` = 1 (30_encoding.md R31). -/

open Sys2Proof Sys2Proof.Machine

/-! ## Encoding (30_encoding.md) -/

/-- Decoding an encoded command gives it back, with every operand at every value (R32, R34, R35). -/
def Obligations.DecodeOfEncodeIsTheCommand : Prop :=
  ∀ i : Instr, decode (encode i) = .command i

/-- Encoding a decoded word gives that word with the operand bits its shape ignores set to 0 and no other bit changed
(R32, R34, R41). -/
def Obligations.EncodeOfDecodeClearsIgnoredBits : Prop :=
  ∀ (w : CmdWord) (i : Instr), decode w = .command i → 
    encode i = w &&& (0xF0000000000000000#68 ||| i.argMask.setWidth 68)

/-- The opcode map with the operand of each shape, and the rejection of every other opcode; opcode 7 decodes to CAT
(R35, R34, R40; that it does so on a block without CAT too is the model's choice, log 7). -/
def Obligations.DecoderFollowsTheOpcodeMap : Prop :=
  ∀ w : CmdWord,
    ((w.extractLsb' 64 4).toNat = 1 → decode w = .command (.new (w.extractLsb' 0 8))) ∧
    ((w.extractLsb' 64 4).toNat = 2 → decode w = .command (.push (w.extractLsb' 0 8))) ∧
    ((w.extractLsb' 64 4).toNat = 3 → decode w = .command .enc) ∧
    ((w.extractLsb' 64 4).toNat = 4 → decode w = .command (.dec (w.extractLsb' 0 64))) ∧
    ((w.extractLsb' 64 4).toNat = 5 → decode w = .command .rdcnt) ∧
    ((w.extractLsb' 64 4).toNat = 6 → decode w = .command (.rdseg (w.extractLsb' 0 8))) ∧
    ((w.extractLsb' 64 4).toNat = 7 → decode w = .command .cat) ∧
    ((w.extractLsb' 64 4).toNat = 0 ∨ 8 ≤ (w.extractLsb' 64 4).toNat →
      decode w = .rejected (.reservedOpcode (w.extractLsb' 64 4)))

/-- Words written out in the spec decode to the commands they stand for (R41; 95_test_vectors.md V5, V50, V55, V57). -/
def Obligations.WrittenWordsDecode : Prop :=
  decode 0x10000000000000053#68 = .command (.new 83) ∧
  decode 0x1FFFFFFFFFFFFFF05#68 = .command (.new 5) ∧
  decode 0x2ABCDEF0123456709#68 = .command (.push 9) ∧
  decode 0x3FFFFFFFFFFFFFFFF#68 = .command .enc ∧
  decode 0x40000000014D394A7#68 = .command (.dec 349410471) ∧
  decode 0x5123456789ABCDEF0#68 = .command .rdcnt ∧
  decode 0x60000000000000100#68 = .command (.rdseg 0) ∧
  decode 0x70000000000000000#68 = .command .cat ∧
  decode 0x80000000000000001#68 = .rejected (.reservedOpcode 8)

/-- Operand bits outside a command's shape do not affect what it decodes to (R34). -/
def Obligations.IgnoredOperandBitsHaveNoEffect : Prop :=
  ∀ w w' : CmdWord,
    w.extractLsb' 64 4 = w'.extractLsb' 64 4 →
    ((w.extractLsb' 64 4 = 1 ∨ w.extractLsb' 64 4 = 2 ∨ w.extractLsb' 64 4 = 6) →
      w.extractLsb' 0 8 = w'.extractLsb' 0 8) →
    (w.extractLsb' 64 4 = 4 → w.extractLsb' 0 64 = w'.extractLsb' 0 64) →
    decode w = decode w'

/-- The response word: the status code in bits 66:64, the data in bits 63:0; codes 0 to 4 in the order of the table,
never 5 to 7; and two responses with one word are the same (R33; 60_exceptions.md R81). -/
def Obligations.ResponseWordLayout : Prop :=
  (∀ r : Response, r.word.extractLsb' 64 3 = r.status.code ∧ r.word.extractLsb' 0 64 = r.data) ∧
  (Status.ok.code = 0 ∧ Status.rangeExceeded.code = 1 ∧ Status.full.code = 2 ∧ Status.index.code = 3 ∧
    Status.illegal.code = 4) ∧
  (∀ r : Response, (r.word.extractLsb' 64 3).toNat ≤ 4) ∧
  (∀ r r' : Response, r.word = r'.word → r = r')

/-! ## One cycle (30_encoding.md R30, R31, R40; 70_reset_and_hazards.md R93) -/

/-- A step whose cycle presents a word that decodes to a command is that command's exec, on the state with the cycle
taken from the host (R30, R31). -/
def Obligations.StepRunsTheDecodedCommand : Prop :=
  ∀ (s : State) (c : Cycle) (rest : List Cycle) (i : Instr),
    s.host = c :: rest → c.rst = false → c.cmdValid = true → decode c.cmd = .command i →
    step s = exec i { s with host := rest }

/-- A presented word is answered Illegal exactly when its opcode is reserved, whatever its operand, and then nothing but
the response port changes (R40; 60_exceptions.md R86). -/
def Obligations.ReservedOpcodeIsIllegal : Prop :=
  ∀ (s : State) (c : Cycle) (rest : List Cycle),
    s.host = c :: rest → c.rst = false → c.cmdValid = true →
    (((c.cmd.extractLsb' 64 4).toNat = 0 ∨ 8 ≤ (c.cmd.extractLsb' 64 4).toNat ∨
        ((c.cmd.extractLsb' 64 4).toNat = 7 ∧ s.params.hasCat = false)) →
      step s = .next { s with host := rest, rsp := some ⟨.illegal, 0⟩ }) ∧
    (¬((c.cmd.extractLsb' 64 4).toNat = 0 ∨ 8 ≤ (c.cmd.extractLsb' 64 4).toNat ∨
        ((c.cmd.extractLsb' 64 4).toNat = 7 ∧ s.params.hasCat = false)) →
      ∃ (t : State) (r : Response), step s = .next t ∧ t.rsp = some r ∧ r.status ≠ .illegal)

/-- A reset cycle gives the empty path, with no response, whatever command is presented in it, and leaves lanes and CNT
as CLR does (R93). -/
def Obligations.ResetCycleGivesTheEmptyPath : Prop :=
  ∀ (s : State) (c : Cycle) (rest : List Cycle),
    s.host = c :: rest → c.rst = true →
    step s = .next { s with
      host := rest, seg := List.replicate s.params.segDepth 0, cnt := 0, rsp := none } ∧
    exec .clr s = .next { s with
      seg := List.replicate s.params.segDepth 0, cnt := 0, rsp := some ⟨.ok, 0⟩ }

/-- With no reset and no command, or a host that presents nothing more, the store is held and there is no response
(60_exceptions.md R92; R31; the second clause is the model's choice, log 2). -/
def Obligations.QuietCycleHoldsTheStore : Prop :=
  (∀ (s : State) (c : Cycle) (rest : List Cycle),
    s.host = c :: rest → c.rst = false → c.cmdValid = false →
    step s = .next { s with host := rest, rsp := none }) ∧
  (∀ s : State, s.host = [] → step s = .next { s with rsp := none })

/-- Every cycle ends in a next state, with a response exactly when a command is presented and not reset; the cycle is
taken from the host, and the block's parameters stay as they are (R30, R31; 00_scope.md R9). -/
def Obligations.EveryCycleEndsWithItsResponse : Prop :=
  ∀ (s : State) (c : Cycle) (rest : List Cycle), s.host = c :: rest →
    ∃ t, step s = .next t ∧ t.host = rest ∧ t.params = s.params ∧ t.rspValid = (c.cmdValid && !c.rst)

/-! ## Starting, appending and reading back (40_path_ops.md) -/

/-- The range check is `v ≤ 127`, equivalently `v[7] = 0` (R45). -/
def Obligations.RangeCheckIsTheTopBit : Prop :=
  ∀ v : Byte, (inRange v = true ↔ v.toNat ≤ 127) ∧ (inRange v = true ↔ v.getLsbD 7 = false)

/-- NEW v: opcode 1 and the byte operand; for v ≤ 127 lane 0 becomes v, every other lane 0, CNT 1, answered OK with
data 0; for v > 127 RangeExceeded with data 0; and nothing else changes (R46). -/
def Obligations.NewStartsAPath : Prop :=
  (∀ w : CmdWord, w.extractLsb' 64 4 = 1 → decode w = .command (.new (w.extractLsb' 0 8))) ∧
  (∀ (v : Byte) (s : State), 1 ≤ s.params.segDepth → v.toNat ≤ 127 →
    exec (.new v) s = .next { s with
      seg := v :: List.replicate (s.params.segDepth - 1) 0, cnt := 1, rsp := some ⟨.ok, 0⟩ }) ∧
  (∀ (v : Byte) (s : State), 127 < v.toNat →
    exec (.new v) s = .next { s with rsp := some ⟨.rangeExceeded, 0⟩ })

/-- PUSH v: opcode 2 and the byte operand; below the depth lane CNT becomes the whole byte v and CNT grows by 1,
answered OK with data 0, on the empty path too; at CNT = SEG_DEPTH Full with data 0; and nothing else changes (R47). -/
def Obligations.PushStoresTheWholeByte : Prop :=
  (∀ w : CmdWord, w.extractLsb' 64 4 = 2 → decode w = .command (.push (w.extractLsb' 0 8))) ∧
  (∀ (v : Byte) (s : State), s.cnt ≠ s.params.segDepth →
    exec (.push v) s = .next { s with
      seg := s.seg.set s.cnt v, cnt := s.cnt + 1, rsp := some ⟨.ok, 0⟩ }) ∧
  (∀ (v : Byte) (s : State), s.cnt = s.params.segDepth →
    exec (.push v) s = .next { s with rsp := some ⟨.full, 0⟩ })

/-- In a store that keeps its invariants, PUSH below the depth appends v to the path: lane CNT is v and every other lane
is as before (R47; 10_state.md R11). -/
def Obligations.PushAppendsToThePath : Prop :=
  ∀ (v : Byte) (s : State), s.Inv → s.cnt < s.params.segDepth →
    ∃ t, exec (.push v) s = .next t ∧ t.path = s.path ++ [v] ∧ t.lane s.cnt = v ∧
      (∀ k, k ≠ s.cnt → t.lane k = s.lane k) ∧ t.cnt = s.cnt + 1 ∧ t.params = s.params ∧ t.host = s.host

/-- RDCNT: opcode 5; answered OK with the count in 64 bits, of which none is lost in a store that keeps its invariants;
nothing else changes (R49). -/
def Obligations.RdcntAnswersTheCount : Prop :=
  (∀ w : CmdWord, w.extractLsb' 64 4 = 5 → decode w = .command .rdcnt) ∧
  (∀ s : State, exec .rdcnt s = .next { s with rsp := some ⟨.ok, BitVec.ofNat 64 s.cnt⟩ }) ∧
  (∀ s : State, s.Inv → (BitVec.ofNat 64 s.cnt).toNat = s.cnt ∧ s.cnt ≤ s.params.segDepth)

/-- RDSEG k: opcode 6 and the byte operand; below CNT answered OK with lane k zero-extended, else Index with data 0;
nothing else changes (R50). -/
def Obligations.RdsegReadsOneLane : Prop :=
  (∀ w : CmdWord, w.extractLsb' 64 4 = 6 → decode w = .command (.rdseg (w.extractLsb' 0 8))) ∧
  (∀ (k : Byte) (s : State), k.toNat < s.cnt →
    exec (.rdseg k) s = .next { s with rsp := some ⟨.ok, (s.lane k.toNat).setWidth 64⟩ }) ∧
  (∀ (k : Byte) (s : State), s.cnt ≤ k.toNat →
    exec (.rdseg k) s = .next { s with rsp := some ⟨.index, 0⟩ })

/-- The sequence law: from any state that keeps the invariants, presenting NEW s0, PUSH s1, … for a list in the bounds
ends with exactly that path, every response OK; and a path that DEC has loaded can be appended to as well (R51). -/
def Obligations.SequenceLaw : Prop :=
  (∀ (s : State) (first : Byte) (rest : List Byte), s.Inv → first.toNat ≤ 127 →
    rest.length + 1 ≤ s.params.segDepth →
    s.host = (pathCommands (first :: rest)).map (fun i => Cycle.command (encode i)) →
    (∃ t, core.run (rest.length + 1) s = .next t ∧ t.path = first :: rest ∧ t.cnt = rest.length + 1 ∧
      t.host = []) ∧
    (∀ m, 1 ≤ m → m ≤ rest.length + 1 → ∃ u : State, core.run m s = .next u ∧ u.rsp = some ⟨.ok, 0⟩)) ∧
  (∀ (s : State) (id : Ident) (v : Byte), s.Inv → (id.extractLsb' 0 4).toNat < s.params.segDepth →
    ∃ t u, exec (.dec id) s = .next t ∧ exec (.push v) t = .next u ∧ u.path = unpack id ++ [v] ∧
      u.rsp = some ⟨.ok, 0⟩)

/-! ## The packer (41_encode.md) -/

/-- ENC: opcode 3; answered OK with 0 for the empty path, else with lane 0, then for each later lane a shift by 3 and an
OR of the whole lane, then a shift by 4 and an OR of the whole count; nothing else changes (R56). -/
def Obligations.EncPacksIteratively : Prop :=
  (∀ w : CmdWord, w.extractLsb' 64 4 = 3 → decode w = .command .enc) ∧
  (∀ s : State, exec .enc s = .next { s with rsp := some ⟨.ok,
    if s.cnt = 0 then 0
    else (((List.range (s.cnt - 1)).foldl (fun (acc : Ident) k => (acc <<< 3) ||| (s.lane (k + 1)).setWidth 64)
      ((s.lane 0).setWidth 64)) <<< 4) ||| BitVec.ofNat 64 s.cnt⟩ })

/-- The closed form: for a path of length L ≥ 1, ENC answers the OR of every lane k shifted left by 3(L-1-k), shifted
left by 4, OR L, all truncating to 64 bits (R57). -/
def Obligations.EncClosedForm : Prop :=
  ∀ s : State, 1 ≤ s.cnt → exec .enc s = .next { s with rsp := some ⟨.ok,
    (((List.range s.cnt).foldl (fun (acc : Ident) k => acc ||| ((s.lane k).setWidth 64 <<< (3 * (s.cnt - 1 - k))))
      (0 : Ident)) <<< 4) ||| BitVec.ofNat 64 s.cnt⟩ }

/-- For a path in contract of length L ≥ 1 the identifier has L in its length field, each lane in its field at the bit
positions of the layout, 0 above them, and is the sum of the fields' values; for L = 0 it is 0 (30_encoding.md R36). -/
def Obligations.IdentifierLayoutInContract : Prop :=
  ∀ s : State, InContract s.path = true →
    ∃ id : Ident, exec .enc s = .next { s with rsp := some ⟨.ok, id⟩ } ∧
      (s.cnt = 0 → id = 0) ∧
      (1 ≤ s.cnt →
        (id.extractLsb' 0 4).toNat = s.cnt ∧
        (id.extractLsb' (3 * s.cnt + 1) 7).toNat = (s.lane 0).toNat ∧
        (∀ k, 1 ≤ k → k < s.cnt → (id.extractLsb' (3 * (s.cnt - k) + 1) 3).toNat = (s.lane k).toNat) ∧
        id >>> (3 * s.cnt + 8) = 0 ∧
        id.toNat = (s.lane 0).toNat * 2 ^ (3 * s.cnt + 1)
          + (∑ k ∈ Finset.Ico 1 s.cnt, (s.lane k).toNat * 2 ^ (3 * (s.cnt - k) + 1)) + s.cnt)

/-- In contract the identifier is below 2^(3L+8), so below 2^53 (R58 b). -/
def Obligations.IdentifierBoundInContract : Prop :=
  ∀ s : State, InContract s.path = true →
    ∃ id : Ident, exec .enc s = .next { s with rsp := some ⟨.ok, id⟩ } ∧
      id.toNat < 2 ^ (3 * s.cnt + 8) ∧ id.toNat < 2 ^ 53

/-- Two different paths in contract have different identifiers (R58 c). -/
def Obligations.PackIsInjectiveInContract : Prop :=
  ∀ p q : List Byte, InContract p = true → InContract q = true → pack p = pack q → p = q

/-- The packer's worked values: the source's fixtures, the empty path, and paths out of contract, two of which share
one identifier (R56, R58, R59; 95_test_vectors.md V1 to V5, V7, V20 to V29). -/
def Obligations.PackWorkedValues : Prop :=
  pack [] = 0 ∧ pack [0] = 1 ∧ pack [1] = 17 ∧ pack [127] = 2033 ∧
  pack [1, 2, 3, 4, 5, 1, 2] = 5477543 ∧ pack [83, 2, 3, 4, 5, 1, 2] = 349410471 ∧
  pack [127, 7, 7, 7, 7, 7, 7, 7, 7, 7, 7, 7, 7, 7, 7] = 9007199254740991 ∧
  pack [200] = 3201 ∧ pack [128] = 2049 ∧ pack [255] = 4081 ∧
  pack [1, 8] = 130 ∧ pack [1, 0] = 130 ∧ pack [1, 9, 2] = 1187 ∧ pack [3, 255] = 4082 ∧
  pack [1, 2, 15, 4] = 12228 ∧
  pack (List.replicate 15 255) = 0x3FFFFFFFFFFFFF

/-- For a path of at most 18 segments no bit of an ENC result is lost: it is the OR over the natural numbers, and its
highest bit is at most bit 3(L-1) + 11 (R60). -/
def Obligations.EncLosesNoBitUpToEighteen : Prop :=
  ∀ s : State, s.cnt ≤ 18 →
    ∃ id : Ident, exec .enc s = .next { s with rsp := some ⟨.ok, id⟩ } ∧
      (1 ≤ s.cnt → id.toNat =
        (((List.range s.cnt).foldl (fun acc k => acc ||| ((s.lane k).toNat <<< (3 * (s.cnt - 1 - k)))) 0) <<< 4)
          ||| s.cnt) ∧
      id.toNat < 2 ^ (3 * (s.cnt - 1) + 12)

/-- For every length the low four bits of an ENC result are L mod 16, so DEC of it unpacks L mod 16 segments (R61). -/
def Obligations.LengthFieldIsLengthModSixteen : Prop :=
  ∀ s t : State, 1 ≤ s.cnt →
    ∃ (id : Ident) (u : State), exec .enc s = .next { s with rsp := some ⟨.ok, id⟩ } ∧
      (id.extractLsb' 0 4).toNat = s.cnt % 16 ∧
      exec (.dec id) t = .next u ∧ u.cnt = s.cnt % 16

/-- In contract, the packer of the variant MASK_ON_PACK, which masks the first segment to 7 bits in step 2 and every
later one to 3 bits in step 3, gives the identifier `pack` gives, so a claim with that premise does not depend on the
no-masking reading (92_eei_decisions.md D9; 93_implementation_defined.md U2; log 8). -/
def Obligations.MaskingMakesNoDifferenceInContract : Prop :=
  ∀ p : List Byte, InContract p = true → maskedPack p = pack p

/-! ## The unpacker (42_decode.md) -/

/-- DEC id: opcode 4 and the identifier operand; with L = id[3:0] it sets CNT to L, lane 0 to id[3L+7:3L+1], lane k to
id[3(L-k)+3:3(L-k)+1], and every other lane to 0, answered OK with data 0; nothing else changes (R66, R67). -/
def Obligations.DecLoadsTheFields : Prop :=
  (∀ w : CmdWord, w.extractLsb' 64 4 = 4 → decode w = .command (.dec (w.extractLsb' 0 64))) ∧
  (∀ (id : Ident) (s : State), 15 ≤ s.params.segDepth →
    ∃ t, exec (.dec id) s = .next t ∧ t.cnt = (id.extractLsb' 0 4).toNat ∧
      t.seg.length = s.params.segDepth ∧
      (1 ≤ t.cnt → t.lane 0 = (id.extractLsb' (3 * t.cnt + 1) 7).setWidth 8) ∧
      (∀ k, 1 ≤ k → k < t.cnt → t.lane k = (id.extractLsb' (3 * (t.cnt - k) + 1) 3).setWidth 8) ∧
      (∀ k, t.cnt ≤ k → t.lane k = 0) ∧
      t.rsp = some ⟨.ok, 0⟩ ∧ t.params = s.params ∧ t.host = s.host)

/-- After any DEC the path is in contract: CNT is id[3:0], at most 15; lane 0, if present, at most 127; every later lane
present at most 7; lanes from CNT on are 0 (R68). -/
def Obligations.DecResultIsInContract : Prop :=
  ∀ (id : Ident) (s : State), 15 ≤ s.params.segDepth →
    ∃ t, exec (.dec id) s = .next t ∧ t.cnt = (id.extractLsb' 0 4).toNat ∧ t.cnt ≤ 15 ∧
      (t.lane 0).toNat ≤ 127 ∧ (∀ k, 1 ≤ k → k < t.cnt → (t.lane k).toNat ≤ 7) ∧
      (∀ k, t.cnt ≤ k → t.lane k = 0) ∧ InContract t.path = true

/-- The amount of the unpacker's final shift changes no result (R69). -/
def Obligations.FinalShiftIsDead : Prop :=
  ∀ (n : Nat) (id : Ident), unpackWith n id = unpack id

/-- Re-packing a decoded value: DEC id then ENC answers id with all bits above the lane 0 field cleared, 0 for a zero
length field, and id itself exactly when id is canonical (R70). -/
def Obligations.DecThenEncClearsStrayBits : Prop :=
  ∀ (id : Ident) (s : State), 15 ≤ s.params.segDepth →
    ∃ (t : State) (out : Ident), exec (.dec id) s = .next t ∧
      exec .enc t = .next { t with rsp := some ⟨.ok, out⟩ } ∧
      out = (if (id.extractLsb' 0 4).toNat = 0 then 0
        else id &&& BitVec.ofNat 64 (2 ^ (3 * (id.extractLsb' 0 4).toNat + 8) - 1)) ∧
      (out = id ↔ Canonical id)

/-- Round trip: from a state with a path in contract, ENC answers v, and DEC v, on a block of any legal depth, leaves
that path again; the empty path packs to 0 and 0 unpacks to the empty path (R71). -/
def Obligations.EncThenDecIsTheSamePath : Prop :=
  (∀ s t : State, InContract s.path = true → 15 ≤ t.params.segDepth →
    ∃ (v : Ident) (u : State), exec .enc s = .next { s with rsp := some ⟨.ok, v⟩ } ∧
      exec (.dec v) t = .next u ∧ u.path = s.path) ∧
  pack [] = 0 ∧ unpack 0 = []

/-- The identifiers ENC produces from paths in contract are exactly the canonical ones (30_encoding.md R39). -/
def Obligations.CanonicalIdentifiersAreThePacked : Prop :=
  ∀ id : Ident, Canonical id ↔ ∃ p : List Byte, InContract p = true ∧ pack p = id

/-- Round trips out of contract and of non-canonical operands: the spec's exact results (R72, R70; 95_test_vectors.md
V20 to V26, V31, V34 to V37, V63). -/
def Obligations.UnpackWorkedValues : Prop :=
  unpack 3201 = [72] ∧ unpack 2049 = [0] ∧ unpack 4081 = [127] ∧ unpack 130 = [1, 0] ∧
  unpack 1187 = [1, 1, 2] ∧ unpack 4082 = [31, 7] ∧ unpack 12228 = [1, 3, 7, 4] ∧
  unpack 349410471 = [83, 2, 3, 4, 5, 1, 2] ∧ unpack 16 = [] ∧ unpack 0x12 = [0, 1] ∧
  unpack 0xFFFFFFFFFFFFFFF1 = [127] ∧
  unpack 0xFFFFFFFFFFFFFFFF = [127, 7, 7, 7, 7, 7, 7, 7, 7, 7, 7, 7, 7, 7, 7] ∧
  unpack 0x0123456789ABCDEF = [13, 0, 5, 3, 1, 7, 0, 4, 6, 5, 3, 6, 3, 3, 6]

/-- DEC of an operand with a zero length field empties the path, whatever its other bits; of these operands the packer
produces only 0 from paths in contract (R74). -/
def Obligations.ZeroLengthFieldEmptiesThePath : Prop :=
  (∀ (id : Ident) (s : State), id.extractLsb' 0 4 = 0 →
    exec (.dec id) s = .next { s with
      seg := List.replicate s.params.segDepth 0, cnt := 0, rsp := some ⟨.ok, 0⟩ }) ∧
  (∀ p : List Byte, InContract p = true → (pack p).extractLsb' 0 4 = 0 → pack p = 0)

/-! ## The optional decimal concatenation (43_idconcat.md) -/

/-- Opcode 7 decodes to CAT, on a block with HAS_CAT = 0 too, which is the model's choice (log 7). With HAS_CAT = 1, CAT
is answered OK with the number whose decimal digits are the unpadded decimal digits of the lanes below CNT one after
another, which is also a fold over the path that multiplies by 10, 100 or 1000 and adds; 0 where that exceeds 2^64 - 1
or there is no digit; nothing else changes (R76). -/
def Obligations.CatReadsTheDigitString : Prop :=
  (∀ w : CmdWord, w.extractLsb' 64 4 = 7 → decode w = .command .cat) ∧
  (∀ s : State, s.params.hasCat = true →
    ∃ n : Nat,
      n = Nat.ofDigits 10 (s.path.flatMap fun v =>
        if v.toNat = 0 then [0] else (Nat.digits 10 v.toNat).reverse).reverse ∧
      n = s.path.foldl (fun m v =>
        m * 10 ^ (if v.toNat ≤ 9 then 1 else if v.toNat ≤ 99 then 2 else 3) + v.toNat) 0 ∧
      exec .cat s = .next { s with rsp := some ⟨.ok, if 2 ^ 64 - 1 < n then 0 else BitVec.ofNat 64 n⟩ })

/-- CAT equals a multiply-and-add that gives 0 as soon as one step exceeds 64 bits (R79). -/
def Obligations.CatByStepwiseOverflow : Prop :=
  ∀ s : State, s.params.hasCat = true →
    exec .cat s = .next { s with rsp := some ⟨.ok,
      ((s.path.foldl (fun acc v => acc.bind fun (m : Nat) =>
        let n := m * 10 ^ (if v.toNat ≤ 9 then 1 else if v.toNat ≤ 99 then 2 else 3) + v.toNat
        if n < 2 ^ 64 then some n else none) (some 0)).map (BitVec.ofNat 64)).getD 0⟩ }

/-- The paths [1,23] and [12,3] have the same CAT value, 123, and different identifiers (R77; 95_test_vectors.md V40,
V41). -/
def Obligations.CatCollides : Prop :=
  (∀ s : State, s.params.hasCat = true → (s.path = [1, 23] ∨ s.path = [12, 3]) →
    exec .cat s = .next { s with rsp := some ⟨.ok, 123⟩ }) ∧
  pack [1, 23] = 498 ∧ pack [12, 3] = 1586

/-- With HAS_CAT = 0, CAT changes nothing and is answered Illegal with data 0; and nothing but CAT depends on HAS_CAT:
any other command on a block with HAS_CAT changed gives the same next state but for that parameter (R75). -/
def Obligations.HasCatDecidesOnlyCat : Prop :=
  (∀ s : State, s.params.hasCat = false → exec .cat s = .next { s with rsp := some ⟨.illegal, 0⟩ }) ∧
  (∀ (i : Instr) (s : State) (b : Bool), i ≠ .cat →
    ∃ t, exec i s = .next t ∧
      exec i { s with params := { s.params with hasCat := b } } =
        .next { t with params := { t.params with hasCat := b } })

/-! ## Errors (60_exceptions.md) and whole-machine rules -/

/-- Every command answers a next state with one response, which is RangeExceeded, Full or Index exactly under its
condition, and Illegal only for an absent CAT (R81, R82, R84, R85). -/
def Obligations.StatusConditions : Prop :=
  ∀ (i : Instr) (s : State), ∃ (t : State) (r : Response), exec i s = .next t ∧ t.rsp = some r ∧
    (r.status = .rangeExceeded ↔ ∃ v, i = .new v ∧ 127 < v.toNat) ∧
    (r.status = .full ↔ ∃ v, i = .push v ∧ s.cnt = s.params.segDepth) ∧
    (r.status = .index ↔ ∃ k, i = .rdseg k ∧ s.cnt ≤ k.toNat) ∧
    (r.status = .illegal ↔ i = .cat ∧ s.params.hasCat = false)

/-- A cycle answered with an error changes no lane, not CNT and nothing else but the ports, and its data is 0 (R83). -/
def Obligations.ErrorsChangeNothing : Prop :=
  ∀ (s t : State) (r : Response), step s = .next t → t.rsp = some r → r.status ≠ .ok →
    r.data = 0 ∧ t = { s with host := s.host.tail, rsp := some r }

/-- ENC, RDCNT, RDSEG and CAT, and every command answered with an error, leave the whole state unchanged but for the
response, and repeating one gives the same response again (10_state.md R19). -/
def Obligations.ReadersAndFailuresChangeNothing : Prop :=
  (∀ (i : Instr) (s : State), (i = .enc ∨ i = .rdcnt ∨ (∃ k, i = .rdseg k) ∨ i = .cat) →
    ∃ r : Response, exec i s = .next { s with rsp := some r } ∧
      exec i { s with rsp := some r } = .next { s with rsp := some r }) ∧
  (∀ (i : Instr) (s t : State) (r : Response), exec i s = .next t → t.rsp = some r → r.status ≠ .ok →
    t = { s with rsp := some r } ∧ exec i t = .next t)

/-- No response is latched: what a step does does not depend on the response before it (10_state.md R15). -/
def Obligations.NoResponseIsLatched : Prop :=
  ∀ (s : State) (r : Option Response), step { s with rsp := r } = step s

/-- A lane or CNT changes only in a cycle that is a reset or presents NEW, PUSH or DEC (70_reset_and_hazards.md R97;
10_state.md R12). -/
def Obligations.OnlyNewPushDecAndResetWrite : Prop :=
  ∀ (s t : State) (c : Cycle) (rest : List Cycle), s.host = c :: rest → step s = .next t →
    (t.seg ≠ s.seg ∨ t.cnt ≠ s.cnt) →
    c.rst = true ∨ (c.cmdValid = true ∧
      ∃ i, decode c.cmd = .command i ∧ ((∃ v, i = .new v) ∨ (∃ v, i = .push v) ∨ (∃ id, i = .dec id)))

/-! ## State (10_state.md; 70_reset_and_hazards.md) -/

/-- The state after reset: CNT 0 and every one of the 15 lanes 0, so the empty path, on a block with the parameter
values the spec takes, with no response (R93; 00_scope.md R5, R6). -/
def Obligations.ResetStateIsTheEmptyPath : Prop :=
  State.reset.cnt = 0 ∧ State.reset.seg = List.replicate 15 0 ∧ State.reset.path = [] ∧
  State.reset.params = { segDepth := 15, hasCat := false } ∧ State.reset.rsp = none

/-- Directly after reset, on a block of any legal depth, every command is available: ENC and RDCNT answer 0, every RDSEG
Index, PUSH appends to the empty path, NEW and DEC load a path, and CAT, where present, answers 0 (R95; 43_idconcat.md
R76). -/
def Obligations.EveryCommandWorksAfterReset : Prop :=
  ∀ (s r : State), s.params.Valid → r = s.applyReset →
    exec .enc r = .next { r with rsp := some ⟨.ok, 0⟩ } ∧
    exec .rdcnt r = .next { r with rsp := some ⟨.ok, 0⟩ } ∧
    (∀ k, exec (.rdseg k) r = .next { r with rsp := some ⟨.index, 0⟩ }) ∧
    (∀ v, ∃ t, exec (.push v) r = .next t ∧ t.path = [v] ∧ t.rsp = some ⟨.ok, 0⟩) ∧
    (∀ v, v.toNat ≤ 127 → ∃ t, exec (.new v) r = .next t ∧ t.path = [v] ∧ t.rsp = some ⟨.ok, 0⟩) ∧
    (∀ id, ∃ t, exec (.dec id) r = .next t ∧ t.path = unpack id ∧ t.rsp = some ⟨.ok, 0⟩) ∧
    (r.params.hasCat = true → exec .cat r = .next { r with rsp := some ⟨.ok, 0⟩ })

/-- The reset state keeps the store's invariants (R16). -/
def Obligations.ResetKeepsTheStoreInvariants : Prop := State.reset.Inv

/-- Every step keeps the store's invariants: CNT at most SEG_DEPTH, and 0 in every lane from CNT on (R16). -/
def Obligations.StepKeepsTheStoreInvariants : Prop :=
  ∀ s t : State, s.Inv → step s = .next t → t.Inv

/-- The count fits its register of CNT_W bits, which is 4 bits at the standard depth and at most 8 (R12; 00_scope.md
R5). -/
def Obligations.CountFitsItsRegister : Prop :=
  (∀ s : State, s.Inv → s.cnt < 2 ^ s.params.cntW) ∧
  (∀ p : Params, p.Valid → p.cntW ≤ 8) ∧ Params.standard.cntW = 4

/-- Two stores of one block that keep the invariants and hold the same path are the same (R13). -/
def Obligations.ThePathDeterminesTheStore : Prop :=
  ∀ s t : State, s.Inv → t.Inv → s.params = t.params → s.path = t.path → s.seg = t.seg ∧ s.cnt = t.cnt

/-- The block is its abstract path machine: in a store that keeps the invariants, each command's path and response are
those the rules give on the list of segments, and nothing else changes (R13). -/
def Obligations.ExecRefinesThePathMachine : Prop :=
  ∀ (i : Instr) (s : State), s.Inv →
    ∃ t, exec i s = .next t ∧ t.path = (pathExec s.params s.path i).1 ∧
      t.rsp = some (pathExec s.params s.path i).2 ∧ t.params = s.params ∧ t.host = s.host

/-! ## Assembler (30_encoding.md R41, R42) -/

/-- Lines assemble to the words the spec gives for them, CLR to DEC 0, and what is no line of the form is an error
(R41, R42). -/
def Obligations.WrittenLinesAssemble : Prop :=
  assembleLine ['P', 'U', 'S', 'H', ' ', '5'] = .ok (some 0x20000000000000005#68) ∧
  assembleLine ['E', 'N', 'C'] = .ok (some 0x30000000000000000#68) ∧
  assembleLine ['N', 'E', 'W', ' ', '8', '3', ' ', ';', ' ', 'x'] = .ok (some 0x10000000000000053#68) ∧
  assembleLine ['D', 'E', 'C', ' ', '0', 'x', '1', '4', 'D', '3', '9', '4', 'A', '7']
    = .ok (some 0x40000000014D394A7#68) ∧
  assembleLine ['R', 'D', 'S', 'E', 'G', ' ', '0'] = .ok (some 0x60000000000000000#68) ∧
  assembleLine ['R', 'D', 'C', 'N', 'T'] = .ok (some 0x50000000000000000#68) ∧
  assembleLine ['C', 'A', 'T'] = .ok (some 0x70000000000000000#68) ∧
  assembleLine ['C', 'L', 'R'] = .ok (some 0x40000000000000000#68) ∧
  encode .clr = 0x40000000000000000#68 ∧
  assembleLine ['P', 'U', 'S', 'H', ' ', '2', '5', '6'] = .error .outOfRange

/-- A byte operand written in decimal assembles when it is at most 255 and is an error above, and an identifier operand
when it is at most 2^64 - 1 (R41). -/
def Obligations.DecimalOperandsAssemble : Prop :=
  ∀ (n : Nat) (text : List Char),
    text = (if n = 0 then ['0'] else (Nat.digits 10 n).reverse.map Nat.digitChar) →
    parseLine (['N', 'E', 'W', ' '] ++ text)
      = (if n < 256 then .ok (some (.new (BitVec.ofNat 8 n))) else .error .outOfRange) ∧
    parseLine (['P', 'U', 'S', 'H', ' '] ++ text)
      = (if n < 256 then .ok (some (.push (BitVec.ofNat 8 n))) else .error .outOfRange) ∧
    parseLine (['R', 'D', 'S', 'E', 'G', ' '] ++ text)
      = (if n < 256 then .ok (some (.rdseg (BitVec.ofNat 8 n))) else .error .outOfRange) ∧
    parseLine (['D', 'E', 'C', ' '] ++ text)
      = (if n < 2 ^ 64 then .ok (some (.dec (BitVec.ofNat 64 n))) else .error .outOfRange)
end

