-- ==== Sys2Proof/Laws/Concat.lean ====
section
/-! SUPPORT. Digit strings: a segment's digits are its decimal digits, and the value of a concatenation (43_idconcat.md
R76). -/

namespace Sys2Proof.Machine

theorem decDigits_eq (v : Byte) :
    decDigits v = if v.toNat = 0 then [0] else (Nat.digits 10 v.toNat).reverse := by
  revert v
  decide

theorem decDigits_length (v : Byte) :
    (decDigits v).length = if v.toNat ≤ 9 then 1 else if v.toNat ≤ 99 then 2 else 3 := by
  revert v
  decide

theorem digitsValue_concat (ds : List Nat) (d : Nat) : digitsValue (ds ++ [d]) = 10 * digitsValue ds + d := by
  simp [digitsValue]

theorem digitsValue_append (a b : List Nat) :
    digitsValue (a ++ b) = digitsValue a * 10 ^ b.length + digitsValue b := by
  induction b using List.reverseRecOn with
  | nil => simp [digitsValue]
  | append_singleton b d ih =>
    rw [← List.append_assoc, digitsValue_concat, digitsValue_concat, ih, List.length_append, List.length_singleton,
      Nat.pow_succ]
    ring

theorem digitsValue_eq_ofDigits (ds : List Nat) : digitsValue ds = Nat.ofDigits 10 ds.reverse := by
  induction ds using List.reverseRecOn with
  | nil => rfl
  | append_singleton ds d ih =>
    rw [digitsValue_concat, ih, List.reverse_append, List.reverse_singleton, List.singleton_append, Nat.ofDigits_cons]
    ring

theorem digitsValue_decDigits (v : Byte) : digitsValue (decDigits v) = v.toNat := by
  revert v
  decide

end Sys2Proof.Machine
end

