-- ==== Sys2Proof/Laws/Decode.lean ====
section
/-! SUPPORT. The fields of a command word made of an opcode and an operand, and every command word as its two fields
(30_encoding.md R32, R34). -/

namespace Sys2Proof.Machine

@[simp] theorem opField_cmdWord (op : BitVec 4) (a : BitVec 64) : opField (cmdWord op a) = op := by
  unfold opField cmdWord
  ext i hi
  simp [show 64 + i < 68 by omega, BitVec.getLsbD_eq_getElem, hi]

@[simp] theorem argField_cmdWord (op : BitVec 4) (a : BitVec 64) : argField (cmdWord op a) = a := by
  unfold argField cmdWord
  ext i hi
  simp [BitVec.getLsbD_shiftLeft, BitVec.getLsbD_setWidth, hi]
  omega

/-- A command word is its opcode above its operand. -/
theorem cmdWord_fields (w : CmdWord) : cmdWord (opField w) (argField w) = w := by
  unfold opField argField cmdWord
  ext i hi
  by_cases h : i < 64
  · simp [h, BitVec.getLsbD_eq_getElem, hi]
  · have h64 : 64 + (i - 64) = i := by omega
    have h4 : i - 64 < 4 := by omega
    simp [h, h64, h4, BitVec.getLsbD_eq_getElem, hi]

/-- The byte operand is `cmd[7:0]` (30_encoding.md R34). -/
theorem byteOperand_eq (w : CmdWord) : byteOperand w = w.extractLsb' 0 8 := by
  unfold byteOperand argField
  ext i hi
  simp

@[simp] theorem byteOperand_cmdWord (op : BitVec 4) (v : Byte) : byteOperand (cmdWord op (v.setWidth 64)) = v := by
  unfold byteOperand
  rw [argField_cmdWord]
  ext i hi
  simp [BitVec.getLsbD_eq_getElem, hi]
  omega

@[simp] theorem identOperand_cmdWord (op : BitVec 4) (id : Ident) : identOperand (cmdWord op id) = id := by
  simp [identOperand]

/-- An opcode 1 to 7 is a command's (30_encoding.md R35). -/
theorem decode_of_opcode_used (w : CmdWord) (h1 : 1 ≤ (opField w).toNat) (h7 : (opField w).toNat ≤ 7) :
    ∃ i, decode w = .command i ∧ i.opcode = opField w := by
  unfold decode
  generalize opField w = x at *
  have hx : x = 1 ∨ x = 2 ∨ x = 3 ∨ x = 4 ∨ x = 5 ∨ x = 6 ∨ x = 7 := by
    revert x
    decide
  rcases hx with h | h | h | h | h | h | h <;> subst h <;> exact ⟨_, rfl, rfl⟩

/-- Every other opcode is reserved (30_encoding.md R40). -/
theorem decode_of_opcode_reserved (w : CmdWord) (h : (opField w).toNat = 0 ∨ 8 ≤ (opField w).toNat) :
    decode w = .rejected (.reservedOpcode (opField w)) := by
  unfold decode
  split <;> first | rfl | omega

end Sys2Proof.Machine
end

