-- ==== Sys2Proof/Laws/State.lean ====
section
/-! SUPPORT. What each operation on the state leaves in each field: one lemma for each field and operation, so that no
later proof unfolds a record update. -/

namespace Sys2Proof.Machine

variable (s : State)

@[simp] theorem State.load_params (p : List Byte) : (s.load p).params = s.params := rfl
@[simp] theorem State.load_seg (p : List Byte) : (s.load p).seg = lanesOf s.params.segDepth p := rfl
@[simp] theorem State.load_cnt (p : List Byte) : (s.load p).cnt = p.length := rfl
@[simp] theorem State.load_host (p : List Byte) : (s.load p).host = s.host := rfl
@[simp] theorem State.load_rsp (p : List Byte) : (s.load p).rsp = s.rsp := rfl

@[simp] theorem State.append_params (v : Byte) : (s.append v).params = s.params := rfl
@[simp] theorem State.append_seg (v : Byte) : (s.append v).seg = s.seg.set s.cnt v := rfl
@[simp] theorem State.append_cnt (v : Byte) : (s.append v).cnt = s.cnt + 1 := rfl
@[simp] theorem State.append_host (v : Byte) : (s.append v).host = s.host := rfl
@[simp] theorem State.append_rsp (v : Byte) : (s.append v).rsp = s.rsp := rfl

@[simp] theorem State.respond_params (st : Status) (d : Ident) : (s.respond st d).params = s.params := rfl
@[simp] theorem State.respond_seg (st : Status) (d : Ident) : (s.respond st d).seg = s.seg := rfl
@[simp] theorem State.respond_cnt (st : Status) (d : Ident) : (s.respond st d).cnt = s.cnt := rfl
@[simp] theorem State.respond_host (st : Status) (d : Ident) : (s.respond st d).host = s.host := rfl
@[simp] theorem State.respond_rsp (st : Status) (d : Ident) : (s.respond st d).rsp = some ⟨st, d⟩ := rfl

@[simp] theorem State.raise_params (e : Status) : (s.raise e).params = s.params := rfl
@[simp] theorem State.raise_seg (e : Status) : (s.raise e).seg = s.seg := rfl
@[simp] theorem State.raise_cnt (e : Status) : (s.raise e).cnt = s.cnt := rfl
@[simp] theorem State.raise_host (e : Status) : (s.raise e).host = s.host := rfl
@[simp] theorem State.raise_rsp (e : Status) : (s.raise e).rsp = some ⟨e, 0⟩ := rfl

@[simp] theorem State.applyReset_params : (s.applyReset).params = s.params := rfl
@[simp] theorem State.applyReset_seg : (s.applyReset).seg = lanesOf s.params.segDepth [] := rfl
@[simp] theorem State.applyReset_cnt : (s.applyReset).cnt = 0 := rfl
@[simp] theorem State.applyReset_host : (s.applyReset).host = s.host := rfl
@[simp] theorem State.applyReset_rsp : (s.applyReset).rsp = none := rfl

@[simp] theorem State.idle_params : (s.idle).params = s.params := rfl
@[simp] theorem State.idle_seg : (s.idle).seg = s.seg := rfl
@[simp] theorem State.idle_cnt : (s.idle).cnt = s.cnt := rfl
@[simp] theorem State.idle_host : (s.idle).host = s.host := rfl
@[simp] theorem State.idle_rsp : (s.idle).rsp = none := rfl

@[simp] theorem State.takeCycle_params : (s.takeCycle).params = s.params := rfl
@[simp] theorem State.takeCycle_seg : (s.takeCycle).seg = s.seg := rfl
@[simp] theorem State.takeCycle_cnt : (s.takeCycle).cnt = s.cnt := rfl
@[simp] theorem State.takeCycle_host : (s.takeCycle).host = s.host.tail := rfl
@[simp] theorem State.takeCycle_rsp : (s.takeCycle).rsp = s.rsp := rfl

@[simp] theorem State.present_params (w : CmdWord) : (s.present w).params = s.params := rfl
@[simp] theorem State.present_seg (w : CmdWord) : (s.present w).seg = s.seg := rfl
@[simp] theorem State.present_cnt (w : CmdWord) : (s.present w).cnt = s.cnt := rfl
@[simp] theorem State.present_host (w : CmdWord) : (s.present w).host = Cycle.command w :: s.host := rfl
@[simp] theorem State.present_rsp (w : CmdWord) : (s.present w).rsp = s.rsp := rfl

end Sys2Proof.Machine
end

