-- ==== Sys2Proof/Laws/Ops.lean ====
section
/-! SUPPORT. What the operations of Machine/Ops.lean do to lanes and to the path, and that each of them keeps the
store's invariants (10_state.md R16). -/

namespace Sys2Proof.Machine

/-! ### Lanes -/

@[simp] theorem lanesOf_length (d : Nat) (p : List Byte) : (lanesOf d p).length = d := by
  simp [lanesOf]

theorem lanesOf_getD (d : Nat) (p : List Byte) (k : Nat) :
    (lanesOf d p).getD k 0 = if k < d then p.getD k 0 else 0 := by
  by_cases h : k < d <;> simp [lanesOf, List.getD_eq_getElem?_getD, h]

theorem lanesOf_nil (d : Nat) : lanesOf d [] = List.replicate d 0 := by
  apply List.ext_getElem <;> simp [lanesOf]

theorem lanesOf_singleton (d : Nat) (h : 1 ≤ d) (v : Byte) :
    lanesOf d [v] = v :: List.replicate (d - 1) 0 := by
  obtain ⟨n, rfl⟩ : ∃ n, d = n + 1 := ⟨d - 1, by omega⟩
  apply List.ext_getElem
  · simp [lanesOf]
  · intro k h1 h2
    cases k <;> simp [lanesOf]

theorem State.load_lane (s : State) (p : List Byte) (hp : p.length ≤ s.params.segDepth) (k : Nat) :
    (s.load p).lane k = p.getD k 0 := by
  rw [State.lane, State.load_seg, lanesOf_getD]
  split
  · rfl
  · rename_i h
    simp [List.getD_eq_getElem?_getD, List.getElem?_eq_none (show p.length ≤ k by omega)]

theorem State.append_lane_self (s : State) (v : Byte) (h : s.cnt < s.seg.length) :
    (s.append v).lane s.cnt = v := by
  simp [State.lane, List.getD_eq_getElem?_getD, h]

theorem State.append_lane_of_ne (s : State) (v : Byte) (k : Nat) (h : k ≠ s.cnt) :
    (s.append v).lane k = s.lane k := by
  simp [State.lane, List.getD_eq_getElem?_getD, List.getElem?_set_ne (Ne.symm h)]

/-! Lanes and paths read no field but `seg` and `cnt`. -/

theorem State.lane_congr (s t : State) (h : s.seg = t.seg) (k : Nat) : s.lane k = t.lane k := by
  simp [State.lane, h]

theorem State.path_congr (s t : State) (h : s.seg = t.seg) (hc : s.cnt = t.cnt) : s.path = t.path := by
  unfold State.path
  rw [hc]
  exact List.map_congr_left fun k _ => State.lane_congr s t h k

@[simp] theorem State.respond_lane (s : State) (st : Status) (d : Ident) (k : Nat) :
    (s.respond st d).lane k = s.lane k := rfl

@[simp] theorem State.raise_lane (s : State) (e : Status) (k : Nat) : (s.raise e).lane k = s.lane k := rfl

@[simp] theorem State.respond_path (s : State) (st : Status) (d : Ident) : (s.respond st d).path = s.path := rfl

@[simp] theorem State.raise_path (s : State) (e : Status) : (s.raise e).path = s.path := rfl

@[simp] theorem State.takeCycle_path (s : State) : s.takeCycle.path = s.path := rfl

/-! ### The path (10_state.md R13) -/

@[simp] theorem State.path_length (s : State) : s.path.length = s.cnt := by simp [State.path]

theorem State.path_getElem? (s : State) (k : Nat) :
    s.path[k]? = if k < s.cnt then some (s.lane k) else none := by
  by_cases h : k < s.cnt <;> simp [State.path, h]

theorem State.load_path (s : State) (p : List Byte) (hp : p.length ≤ s.params.segDepth) : (s.load p).path = p := by
  apply List.ext_getElem?
  intro k
  rw [State.path_getElem?, State.load_lane s p hp]
  by_cases h : k < p.length
  · simp [List.getD_eq_getElem?_getD, h]
  · simp [h]

theorem State.append_path (s : State) (v : Byte) (h : s.cnt < s.seg.length) :
    (s.append v).path = s.path ++ [v] := by
  unfold State.path
  rw [State.append_cnt, List.range_succ, List.map_append, List.map_singleton, State.append_lane_self s v h]
  congr 1
  exact List.map_congr_left fun k hk =>
    State.append_lane_of_ne s v k (by have := List.mem_range.mp hk; omega)

/-! ### The invariants (10_state.md R16) -/

theorem State.Inv.lane_eq_zero {s : State} (h : s.Inv) (k : Nat) (hk : s.cnt ≤ k) : s.lane k = 0 := by
  by_cases hd : k < s.params.segDepth
  · exact h.2.2.2 k hd hk
  · simp [State.lane, List.getD_eq_getElem?_getD, List.getElem?_eq_none (show s.seg.length ≤ k by have := h.2.1; omega)]

/-- An operation that writes only the ports keeps the invariants. -/
theorem State.Inv.of_store_eq {s t : State} (h : s.Inv) (hp : t.params = s.params) (hs : t.seg = s.seg)
    (hc : t.cnt = s.cnt) : t.Inv := by
  obtain ⟨h1, h2, h3, h4⟩ := h
  refine ⟨hp ▸ h1, by rw [hs, hp, h2], by rw [hc, hp]; exact h3, fun k hk hck => ?_⟩
  rw [State.lane_congr t s hs k]
  exact h4 k (hp ▸ hk) (hc ▸ hck)

theorem State.Inv.respond {s : State} (h : s.Inv) (st : Status) (d : Ident) : (s.respond st d).Inv :=
  h.of_store_eq rfl rfl rfl

theorem State.Inv.raise {s : State} (h : s.Inv) (e : Status) : (s.raise e).Inv := h.of_store_eq rfl rfl rfl

theorem State.Inv.idle {s : State} (h : s.Inv) : s.idle.Inv := h.of_store_eq rfl rfl rfl

theorem State.Inv.takeCycle {s : State} (h : s.Inv) : s.takeCycle.Inv := h.of_store_eq rfl rfl rfl

theorem State.Inv.present {s : State} (h : s.Inv) (w : CmdWord) : (s.present w).Inv := h.of_store_eq rfl rfl rfl

theorem State.Inv.load {s : State} (h : s.Inv) (p : List Byte) (hp : p.length ≤ s.params.segDepth) :
    (s.load p).Inv := by
  refine ⟨h.1, by simp, hp, fun k _ hk => ?_⟩
  rw [State.load_cnt] at hk
  rw [State.load_lane s p hp]
  simp [List.getD_eq_getElem?_getD, List.getElem?_eq_none hk]

theorem State.Inv.append {s : State} (h : s.Inv) (v : Byte) (hc : s.cnt < s.params.segDepth) :
    (s.append v).Inv := by
  refine ⟨h.1, by simpa using h.2.1, hc, fun k _ hk => ?_⟩
  rw [State.append_cnt] at hk
  rw [State.append_lane_of_ne s v k (by omega)]
  exact h.lane_eq_zero k (by omega)

theorem State.Inv.applyReset {s : State} (h : s.Inv) : s.applyReset.Inv :=
  (h.load [] (Nat.zero_le _)).of_store_eq rfl rfl rfl

end Sys2Proof.Machine
end

