-- ==== Sys2Proof/Laws/Unpacker.lean ====
section
/-! SUPPORT. The unpacker's countdown: its length, its elements, and the length of its result (42_decode.md R66,
R67). -/

namespace Sys2Proof.Machine

@[simp] theorem extractSegs_length (f n : Nat) (rem : Ident) : (extractSegs f n rem).length = n := by
  induction n generalizing rem with
  | zero => rfl
  | succ i ih =>
    unfold extractSegs
    split <;> simp [ih]

/-- The element extracted at step `j` of the countdown: the remaining value has been shifted by 3 for each earlier step
(42_decode.md R67). -/
theorem extractSegs_getElem? (f n : Nat) (rem : Ident) (j : Nat) :
    (extractSegs f n rem)[j]? =
      if n ≤ j then none
      else if j + 1 = n then some (firstWindow (rem >>> (3 * j)))
      else some (laterField (rem >>> (3 * j))) := by
  induction n generalizing rem j with
  | zero => simp [extractSegs]
  | succ i ih =>
    unfold extractSegs
    by_cases hi : i = 0
    · subst hi
      cases j <;> simp [extractSegs]
    · cases j with
      | zero => simp [hi]
      | succ j =>
        have hs : (rem >>> 3) >>> (3 * j) = rem >>> (3 * (j + 1)) := by
          rw [← BitVec.shiftRight_add]
          congr 1
          omega
        simp [hi, ih, hs]

/-! The fields as remainders of the word's value. -/

theorem lenField_eq (id : Ident) : lenField id = id.toNat % 16 := by
  rw [lenField, BitVec.extractLsb'_toNat, Nat.shiftRight_zero]
  rfl

theorem firstWindow_toNat (rem : Ident) : (firstWindow rem).toNat = rem.toNat % 128 := by
  rw [firstWindow, BitVec.toNat_setWidth, BitVec.extractLsb'_toNat, Nat.shiftRight_zero]
  show rem.toNat % 128 % 2 ^ 8 = rem.toNat % 128
  omega

theorem laterField_toNat (rem : Ident) : (laterField rem).toNat = rem.toNat % 8 := by
  rw [laterField, BitVec.toNat_setWidth, BitVec.extractLsb'_toNat, Nat.shiftRight_zero]
  show rem.toNat % 8 % 2 ^ 8 = rem.toNat % 8
  omega

theorem lenField_lt (id : Ident) : lenField id < 16 := by
  rw [lenField_eq]
  omega

@[simp] theorem unpackWith_length (f : Nat) (id : Ident) : (unpackWith f id).length = lenField id := by
  simp [unpackWith]

@[simp] theorem unpack_length (id : Ident) : (unpack id).length = lenField id := unpackWith_length _ id

/-- The path's element k, read from its field of the identifier: the closed form of the unpacker (42_decode.md R67). -/
theorem unpackWith_getElem? (f : Nat) (id : Ident) (k : Nat) (h : k < lenField id) :
    (unpackWith f id)[k]? = some
      (if k = 0 then (id.extractLsb' (3 * lenField id + 1) 7).setWidth 8
      else (id.extractLsb' (3 * (lenField id - k) + 1) 3).setWidth 8) := by
  have key : ∀ j w, (id >>> Config.lenW >>> (3 * j)).extractLsb' 0 w = id.extractLsb' (3 * j + 4) w := by
    intro j w
    ext i hi
    simp only [BitVec.getElem_extractLsb', BitVec.getLsbD_ushiftRight, Config.lenW]
    congr 1
    omega
  unfold unpackWith
  rw [List.getElem?_reverse (by simpa using h), extractSegs_getElem?, extractSegs_length, if_neg (by omega)]
  by_cases hk : k = 0
  · subst hk
    rw [if_pos (by omega), if_pos rfl, firstWindow, key,
      show 3 * (lenField id - 1 - 0) + 4 = 3 * lenField id + 1 by omega]
  · rw [if_neg (by omega), if_neg hk, laterField, key,
      show 3 * (lenField id - 1 - k) + 4 = 3 * (lenField id - k) + 1 by omega]

end Sys2Proof.Machine
end

