-- ==== Sys2Proof/Laws/Exec.lean ====
section
/-! SUPPORT. What a command can do, said once: each command's two outcomes, and from them the four shapes that a next
state can have (00_scope.md R9; 60_exceptions.md R83). -/

namespace Sys2Proof.Machine

theorem exec_new_of_inRange {v : Byte} (s : State) (h : v.toNat ≤ 127) :
    exec (.new v) s = .next ((s.load [v]).respond .ok 0) := by
  simp [exec, execNew, inRange, h]

theorem exec_new_of_not_inRange {v : Byte} (s : State) (h : ¬v.toNat ≤ 127) :
    exec (.new v) s = .next (s.raise .rangeExceeded) := by
  simp [exec, execNew, inRange, h]

theorem exec_push_of_ne {s : State} (v : Byte) (h : s.cnt ≠ s.params.segDepth) :
    exec (.push v) s = .next ((s.append v).respond .ok 0) := by
  simp [exec, execPush, h]

theorem exec_push_of_eq {s : State} (v : Byte) (h : s.cnt = s.params.segDepth) :
    exec (.push v) s = .next (s.raise .full) := by
  simp [exec, execPush, h]

theorem exec_enc (s : State) : exec .enc s = .next (s.respond .ok (pack s.path)) := rfl

theorem exec_dec (id : Ident) (s : State) : exec (.dec id) s = .next ((s.load (unpack id)).respond .ok 0) := rfl

theorem exec_rdcnt (s : State) : exec .rdcnt s = .next (s.respond .ok (BitVec.ofNat 64 s.cnt)) := rfl

theorem exec_rdseg_of_lt {s : State} {k : Byte} (h : k.toNat < s.cnt) :
    exec (.rdseg k) s = .next (s.respond .ok ((s.lane k.toNat).setWidth 64)) := by
  simp [exec, execRdseg, zextSeg, Nat.not_le.mpr h]

theorem exec_rdseg_of_le {s : State} {k : Byte} (h : s.cnt ≤ k.toNat) :
    exec (.rdseg k) s = .next (s.raise .index) := by
  simp [exec, execRdseg, h]

theorem exec_cat_of_present {s : State} (h : s.params.hasCat = true) :
    exec .cat s = .next (s.respond .ok (catValue s.path)) := by
  simp [exec, execCat, h]

theorem exec_cat_of_absent {s : State} (h : s.params.hasCat = false) :
    exec .cat s = .next (s.raise .illegal) := by
  simp [exec, execCat, h]

/-- What a command can do: raise an error, answer without writing, load a path of at most 15 segments, or append one
segment below the depth. -/
inductive Effect (i : Instr) (s : State) : State → Prop where
  | raised (e : Status) (he : e ≠ .ok) : Effect i s (s.raise e)
  | answered (d : Ident) (hi : i = .enc ∨ i = .rdcnt ∨ (∃ k, i = .rdseg k) ∨ i = .cat) :
      Effect i s (s.respond .ok d)
  | loaded (p : List Byte) (hp : p.length ≤ 15) (hi : (∃ v, i = .new v) ∨ (∃ id, i = .dec id)) :
      Effect i s ((s.load p).respond .ok 0)
  | appended (v : Byte) (hc : s.cnt ≠ s.params.segDepth) (hi : i = .push v) :
      Effect i s ((s.append v).respond .ok 0)

/-- Every command has a next state, of one of the four shapes. -/
theorem exec_effect (i : Instr) (s : State) : ∃ t, exec i s = .next t ∧ Effect i s t := by
  cases i with
  | new v =>
    by_cases h : v.toNat ≤ 127
    · exact ⟨_, exec_new_of_inRange s h, .loaded [v] (by simp) (.inl ⟨v, rfl⟩)⟩
    · exact ⟨_, exec_new_of_not_inRange s h, .raised _ (by decide)⟩
  | push v =>
    by_cases h : s.cnt = s.params.segDepth
    · exact ⟨_, exec_push_of_eq v h, .raised _ (by decide)⟩
    · exact ⟨_, exec_push_of_ne v h, .appended v h rfl⟩
  | enc => exact ⟨_, exec_enc s, .answered _ (.inl rfl)⟩
  | dec id =>
    exact ⟨_, exec_dec id s, .loaded _ (by have := lenField_lt id; simp; omega) (.inr ⟨id, rfl⟩)⟩
  | rdcnt => exact ⟨_, exec_rdcnt s, .answered _ (.inr (.inl rfl))⟩
  | rdseg k =>
    rcases Nat.lt_or_ge k.toNat s.cnt with h | h
    · exact ⟨_, exec_rdseg_of_lt h, .answered _ (.inr (.inr (.inl ⟨k, rfl⟩)))⟩
    · exact ⟨_, exec_rdseg_of_le h, .raised _ (by decide)⟩
  | cat =>
    cases h : s.params.hasCat with
    | true => exact ⟨_, exec_cat_of_present h, .answered _ (.inr (.inr (.inr rfl)))⟩
    | false => exact ⟨_, exec_cat_of_absent h, .raised _ (by decide)⟩

/-- The inversion of exec: a next state has one of the four shapes. -/
theorem effect_of_exec {i : Instr} {s t : State} (h : exec i s = .next t) : Effect i s t := by
  obtain ⟨u, hu, he⟩ := exec_effect i s
  cases hu.symm.trans h
  exact he

theorem Effect.params_eq {i : Instr} {s t : State} (h : Effect i s t) : t.params = s.params := by cases h <;> rfl

theorem Effect.host_eq {i : Instr} {s t : State} (h : Effect i s t) : t.host = s.host := by cases h <;> rfl

theorem Effect.rsp_isSome {i : Instr} {s t : State} (h : Effect i s t) : t.rsp.isSome = true := by cases h <;> rfl

end Sys2Proof.Machine
end

