-- ==== Sys2Proof/Laws/Packer.lean ====
section
/-! SUPPORT. The packer's accumulator: how one more segment at the end changes it, and its value as a natural number
(41_encode.md R56, R57, R60). -/

namespace Sys2Proof.Machine

theorem packStep_zero (v : Byte) : packStep 0 v = zextSeg v := by simp [packStep]

theorem packSegs_eq_foldl (p : List Byte) : packSegs p = p.foldl packStep 0 := by
  cases p with
  | nil => rfl
  | cons first rest => rw [List.foldl_cons, packStep_zero]; rfl

/-- One more segment: a shift by 3 and an OR. -/
theorem packSegs_concat (p : List Byte) (v : Byte) : packSegs (p ++ [v]) = packStep (packSegs p) v := by
  simp [packSegs_eq_foldl]

theorem pack_of_ne_nil (p : List Byte) (h : p ≠ []) : pack p = (packSegs p <<< 4) ||| BitVec.ofNat 64 p.length := by
  cases p with
  | nil => exact absurd rfl h
  | cons first rest => rfl

theorem packStep_toNat (acc : Ident) (v : Byte) : (packStep acc v).toNat = (acc.toNat <<< 3) % 2 ^ 64 ||| v.toNat := by
  have : v.toNat < 2 ^ 64 := Nat.lt_of_lt_of_le v.isLt (by decide)
  rw [packStep, zextSeg, BitVec.toNat_or, BitVec.toNat_shiftLeft, BitVec.toNat_setWidth, Nat.mod_eq_of_lt this]

/-- The accumulator as a natural number without a width, for the claims that no bit is lost. -/
def natSegs (p : List Byte) : Nat := p.foldl (fun acc v => acc <<< 3 ||| v.toNat) 0

theorem natSegs_concat (p : List Byte) (v : Byte) : natSegs (p ++ [v]) = natSegs p <<< 3 ||| v.toNat := by
  simp [natSegs]

theorem natSegs_lt (p : List Byte) : natSegs p < 2 ^ (3 * (p.length - 1) + 8) := by
  induction p using List.reverseRecOn with
  | nil => simp [natSegs]
  | append_singleton p v ih =>
    have h8 : 2 ^ 8 ≤ 2 ^ (3 * p.length + 8) := Nat.pow_le_pow_right (by omega) (by omega)
    have hv : v.toNat < 2 ^ (3 * p.length + 8) := Nat.lt_of_lt_of_le v.isLt h8
    have hp : natSegs p <<< 3 < 2 ^ (3 * p.length + 8) := by
      rcases Nat.eq_zero_or_pos p.length with h | h
      · simp [List.length_eq_zero_iff.mp h, natSegs]
      · rw [Nat.shiftLeft_eq, show 3 * p.length + 8 = 3 * (p.length - 1) + 8 + 3 by omega, Nat.pow_add 2 (3 * (p.length - 1) + 8) 3]
        generalize 2 ^ (3 * (p.length - 1) + 8) = b at ih ⊢
        omega
    rw [natSegs_concat, List.length_append, List.length_singleton, Nat.add_sub_cancel]
    exact Nat.or_lt_two_pow hp hv

/-- The accumulator is the natural number's low 64 bits. -/
theorem packSegs_toNat (p : List Byte) : (packSegs p).toNat = natSegs p % 2 ^ 64 := by
  induction p using List.reverseRecOn with
  | nil => rfl
  | append_singleton p v ih =>
    have hv : v.toNat % 2 ^ 64 = v.toNat := Nat.mod_eq_of_lt (Nat.lt_of_lt_of_le v.isLt (by decide))
    rw [packSegs_concat, natSegs_concat, packStep_toNat, ih, Nat.or_mod_two_pow, hv, Nat.shiftLeft_eq,
      Nat.shiftLeft_eq, Nat.mod_mul_mod]

/-- Up to 18 segments no bit of the identifier is lost (41_encode.md R60). -/
theorem pack_toNat (p : List Byte) (h : p ≠ []) (hl : p.length ≤ 18) :
    (pack p).toNat = natSegs p <<< 4 ||| p.length := by
  have h59 : 2 ^ (3 * (p.length - 1) + 8) ≤ 2 ^ 59 := Nat.pow_le_pow_right (by omega) (by omega)
  have hb := natSegs_lt p
  rw [pack_of_ne_nil p h, BitVec.toNat_or, BitVec.toNat_shiftLeft, packSegs_toNat, BitVec.toNat_ofNat,
    Nat.mod_eq_of_lt (show natSegs p < 2 ^ 64 by omega), Nat.mod_eq_of_lt (show p.length < 2 ^ 64 by omega),
    Nat.shiftLeft_eq, Nat.mod_eq_of_lt (by omega)]

/-- The length field of an identifier (41_encode.md R61). -/
theorem lenField_pack (p : List Byte) (h : p ≠ []) : lenField (pack p) = p.length % 16 := by
  rw [pack_of_ne_nil p h, lenField_eq, BitVec.toNat_or, BitVec.toNat_shiftLeft, BitVec.toNat_ofNat, Nat.shiftLeft_eq,
    show 16 = 2 ^ 4 by rfl, Nat.or_mod_two_pow,
    show (packSegs p).toNat * 2 ^ 4 % 2 ^ 64 % 2 ^ 4 = 0 by omega, Nat.zero_or]
  omega

end Sys2Proof.Machine
end

