-- ==== Sys2Proof/Laws/PerInstr.lean ====
section
/-! SUPPORT. A fact about each command as syntax: its word holds its opcode in `cmd[67:64]`, its operand in
`cmd[63:0]`, and 0 in every operand bit its shape ignores (30_encoding.md R32, R34, R35, R41). -/

namespace Sys2Proof.Laws.EncodeFields

open Sys2Proof.Machine

/-- The fields of a command's word. -/
def Statement (i : Instr) : Prop :=
  opField (encode i) = i.opcode ∧ argField (encode i) = i.arg ∧ i.arg &&& ~~~i.argMask = 0

theorem byte_arg_within (v : Byte) : v.setWidth 64 &&& ~~~0xFF#64 = 0 := by
  ext j hj
  by_cases h : j < 8
  · interval_cases j <;> simp
  · simp [BitVec.getLsbD_of_ge v j (by omega)]

theorem new (v : Byte) : Statement (.new v) := ⟨opField_cmdWord _ _, argField_cmdWord _ _, byte_arg_within v⟩

theorem push (v : Byte) : Statement (.push v) := ⟨opField_cmdWord _ _, argField_cmdWord _ _, byte_arg_within v⟩

theorem enc : Statement .enc := ⟨opField_cmdWord _ _, argField_cmdWord _ _, by decide⟩

theorem dec (id : Ident) : Statement (.dec id) :=
  ⟨opField_cmdWord _ _, argField_cmdWord _ _, by
    show id &&& ~~~(BitVec.allOnes 64) = 0
    simp⟩

theorem rdcnt : Statement .rdcnt := ⟨opField_cmdWord _ _, argField_cmdWord _ _, by decide⟩

theorem rdseg (k : Byte) : Statement (.rdseg k) := ⟨opField_cmdWord _ _, argField_cmdWord _ _, byte_arg_within k⟩

theorem cat : Statement .cat := ⟨opField_cmdWord _ _, argField_cmdWord _ _, by decide⟩

end Sys2Proof.Laws.EncodeFields
end

