-- ==== Sys2Proof/Laws/Step.lean ====
section
/-! SUPPORT. What a step can do, said once: a reset, a quiet cycle, a reserved opcode, or a decoded command
(30_encoding.md R31, R40; 70_reset_and_hazards.md R93). -/

namespace Sys2Proof.Machine

theorem step_of_reset {s : State} (h : s.nextCycle.rst = true) : step s = .next s.takeCycle.applyReset := by
  simp [step, runCycle, h]

theorem step_of_quiet {s : State} (h : s.nextCycle.rst = false) (hv : s.nextCycle.cmdValid = false) :
    step s = .next s.takeCycle.idle := by
  simp [step, runCycle, h, hv]

theorem step_of_rejected {s : State} {e : DecodeError} (h : s.nextCycle.rst = false)
    (hv : s.nextCycle.cmdValid = true) (hd : decode s.nextCycle.cmd = .rejected e) :
    step s = .next (s.takeCycle.raise .illegal) := by
  simp [step, runCycle, runWord, h, hv, hd]

theorem step_of_command {s : State} {i : Instr} (h : s.nextCycle.rst = false)
    (hv : s.nextCycle.cmdValid = true) (hd : decode s.nextCycle.cmd = .command i) :
    step s = exec i s.takeCycle := by
  simp [step, runCycle, runWord, h, hv, hd]

/-- What a step can do. -/
inductive StepEffect (s : State) : State → Prop where
  | reset (h : s.nextCycle.rst = true) : StepEffect s s.takeCycle.applyReset
  | quiet (h : s.nextCycle.rst = false) (hv : s.nextCycle.cmdValid = false) : StepEffect s s.takeCycle.idle
  | rejected (e : DecodeError) (h : s.nextCycle.rst = false) (hv : s.nextCycle.cmdValid = true)
      (hd : decode s.nextCycle.cmd = .rejected e) : StepEffect s (s.takeCycle.raise .illegal)
  | command (i : Instr) (t : State) (h : s.nextCycle.rst = false) (hv : s.nextCycle.cmdValid = true)
      (hd : decode s.nextCycle.cmd = .command i) (ht : Effect i s.takeCycle t) : StepEffect s t

/-- Every step has a next state, of one of the four kinds. -/
theorem step_effect (s : State) : ∃ t, step s = .next t ∧ StepEffect s t := by
  cases h : s.nextCycle.rst with
  | true => exact ⟨_, step_of_reset h, .reset h⟩
  | false =>
    cases hv : s.nextCycle.cmdValid with
    | false => exact ⟨_, step_of_quiet h hv, .quiet h hv⟩
    | true =>
      cases hd : decode s.nextCycle.cmd with
      | rejected e => exact ⟨_, step_of_rejected h hv hd, .rejected e h hv hd⟩
      | command i =>
        obtain ⟨t, ht, he⟩ := exec_effect i s.takeCycle
        exact ⟨t, (step_of_command h hv hd).trans ht, .command i t h hv hd he⟩

/-- The inversion of step. -/
theorem effect_of_step {s t : State} (h : step s = .next t) : StepEffect s t := by
  obtain ⟨u, hu, he⟩ := step_effect s
  cases hu.symm.trans h
  exact he

/-- A run of several steps, through its first step. -/
theorem run_succ_of_step (M : Host.Core) {s u : M.State} (h : M.step s = .next u) (k : Nat) :
    M.run (k + 1) s = M.run k u := by
  simp only [Host.Core.run, h]

theorem run_of_step {s u : State} (h : step s = .next u) (k : Nat) : core.run (k + 1) s = core.run k u :=
  run_succ_of_step core h k

end Sys2Proof.Machine
end

