-- ==== Sys2Proof/Tests/Slice0.lean ====
section
/-! SUPPORT. Small tests of the model against the vectors of 95_test_vectors.md, and for every obligation with hypotheses
a concrete witness of them. A test's comment names the vector its expected result comes from. -/

namespace Sys2Proof.Tests

open Sys2Proof.Machine Host

/-- A block with these parameters that holds this path and has no input and no response. -/
def blockOf (depth : Nat) (hasCat : Bool) (p : List Byte) : State :=
  { params := { segDepth := depth, hasCat := hasCat }, seg := lanesOf depth p, cnt := p.length, host := [], rsp := none }

/-- The standard block holding this path. -/
def holding (p : List Byte) : State := blockOf 15 false p

/-- The path and the response word after a step in which the host presents `w`. -/
def answer (s : State) (w : CmdWord) : Option (List Byte × Option RspWord) :=
  match step (s.present w) with
  | .next t => some (t.path, t.rspWord)
  | .fault _ => none
  | .refused _ => none

/-! ### WellFormed -/

-- R75: CAT is no command of a block with HAS_CAT = 0.
theorem test_cat_ill_formed_without_cat : Instr.wellFormed Params.standard .cat = false := by decide

theorem test_well_formed : Instr.wellFormed Params.standard (.push 200) = true ∧
    Instr.wellFormed { segDepth := 15, hasCat := true } .cat = true := by decide

/-! ### Decoding, words written out from 30_encoding.md R32, R34, R35 -/

-- 0001, 56 ignored bits, 01010011 (83)
theorem test_decode_new : decode
    0b00010000000000000000000000000000000000000000000000000000000001010011#68 = .command (.new 83) := by decide

-- 0010, 56 ignored bits set, 00001001 (9)
theorem test_decode_push : decode
    0b00101111111111111111111111111111111111111111111111111111111100001001#68 = .command (.push 9) := by decide

-- 0011, 64 ignored bits
theorem test_decode_enc : decode 0x3FFFFFFFFFFFFFFFF#68 = .command .enc := by decide

-- 0100, the identifier 2^63 + 17
theorem test_decode_dec : decode
    0b01001000000000000000000000000000000000000000000000000000000000010001#68
      = .command (.dec 0x8000000000000011) := by decide

-- 0101, 64 ignored bits
theorem test_decode_rdcnt : decode 0x5123456789ABCDEF0#68 = .command .rdcnt := by decide

-- V57e: arg = 256, so arg[7:0] = 0
theorem test_decode_rdseg : decode 0x60000000000000100#68 = .command (.rdseg 0) := by decide

-- 0111, 64 ignored bits
theorem test_decode_cat : decode 0x70000000000000000#68 = .command .cat := by decide

-- V56a, V56b, V56c
theorem test_decode_reserved : decode 0 = .rejected (.reservedOpcode 0) ∧
    decode 0x80000000000000001#68 = .rejected (.reservedOpcode 8) ∧
    decode 0xFFFFFFFFFFFFFFFFF#68 = .rejected (.reservedOpcode 15) := by decide

-- The table's bits, in whole bytes.
theorem test_decodeTableWord : decodeTableWord 72 0x40000000014D394A7 = some (.dec 349410471) ∧
    decodeTableWord 72 0x80000000000000000 = none ∧ decodeTableWord 72 0x170000000000000000 = none := by decide

theorem test_withFetchWord : step (State.reset.withFetchWord 72 0x10000000000000053)
    = exec (.new 83) State.reset := by rfl

/-! ### Commands -/

-- V51, V57a
theorem test_new : answer (holding [1, 2]) 0x10000000000000080#68 = some ([1, 2], some 0x10000000000000000#67) ∧
    answer (holding [1, 2]) 0x1FFFFFFFFFFFFFF05#68 = some ([5], some 0) := by decide

-- V54, V57c
theorem test_push : answer (holding (List.replicate 15 0)) 0x20000000000000003#68
      = some (List.replicate 15 0, some 0x20000000000000000#67) ∧
    answer (holding [1]) 0x2ABCDEF0123456709#68 = some ([1, 9], some 0) := by decide

-- V58d, V20: the empty path takes its first segment unchecked
theorem test_push_on_empty : answer State.reset 0x200000000000000C8#68 = some ([200], some 0) := by decide

-- V3
theorem test_enc : answer (holding [1, 2, 3, 4, 5, 1, 2]) 0x30000000000000000#68
    = some ([1, 2, 3, 4, 5, 1, 2], some 0x5394A7#67) := by decide

-- V29, V28 (L = 16 at depth 16; L = 19 at depth 19, where bit 64 is dropped)
theorem test_pack_long : pack (List.replicate 15 255) = 0x3FFFFFFFFFFFFF ∧
    pack (127 :: List.replicate 15 7) = 0xFFFFFFFFFFFFF0 ∧
    pack (127 :: List.replicate 18 7) = 0xFFFFFFFFFFFFFFF3 := by decide

-- V5, V34
theorem test_dec : answer (holding [9]) 0x40000000014D394A7#68 = some ([83, 2, 3, 4, 5, 1, 2], some 0) ∧
    answer (holding [9]) 0x4FFFFFFFFFFFFFFFF#68 = some (127 :: List.replicate 14 7, some 0) := by decide

-- 93_implementation_defined.md U2, by hand: (200 & 127) << 4 | 1, and (3 << 3 | 7) << 4 | 2; no masking gives 3201 and
-- 4082 (95_test_vectors.md V20, V25), and the first fixture is the same with masks.
theorem test_maskedPack : maskedPack [200] = 1153 ∧ maskedPack [3, 255] = 498 ∧
    maskedPack [1, 2, 3, 4, 5, 1, 2] = 5477543 ∧ pack [200] = 3201 ∧ pack [3, 255] = 4082 := by decide

-- V39, V61
theorem test_unpack_edges : unpack 9 = List.replicate 9 0 ∧
    unpack 0x1000000000000F = 64 :: List.replicate 14 0 := by decide

-- V55f, V57f
theorem test_rdcnt : answer (holding [83, 2, 3]) 0x50000000000000000#68 = some ([83, 2, 3], some 3) ∧
    answer (holding [7, 1]) 0x5123456789ABCDEF0#68 = some ([7, 1], some 2) := by decide

-- V55a, V55b
theorem test_rdseg : answer (holding [83, 2, 3]) 0x60000000000000002#68 = some ([83, 2, 3], some 3) ∧
    answer (holding [83, 2, 3]) 0x60000000000000003#68 = some ([83, 2, 3], some 0x30000000000000000#67) := by decide

-- V55e: the lane is read whole
theorem test_rdseg_whole_lane : answer (holding [200]) 0x60000000000000000#68 = some ([200], some 0xC8) := by decide

-- V56d, V56e
theorem test_cat : answer (holding [1, 2]) 0x70000000000000000#68 = some ([1, 2], some 0x40000000000000000#67) ∧
    answer (blockOf 15 true [1, 2]) 0x70000000000000000#68 = some ([1, 2], some 12) := by decide

-- V44, V45, V47, V68, V69, V49
theorem test_catValue : catValue [0, 5] = 5 ∧ catValue (List.replicate 6 255) = 255255255255255255 ∧
    catValue [18, 44, 67, 44, 0, 73, 70, 95, 51, 61, 5] = 0xFFFFFFFFFFFFFFFF ∧
    catValue [18, 44, 67, 44, 0, 73, 70, 95, 51, 61, 6] = 0 ∧
    catValue [18, 44, 67, 44, 0, 73, 70, 95, 51, 61, 7] = 0 ∧ catValue [100, 200] = 100200 := by decide

-- V56a, V56c
theorem test_reserved : answer (holding [1, 2]) 0 = some ([1, 2], some 0x40000000000000000#67) ∧
    answer (holding [1, 2]) 0xFFFFFFFFFFFFFFFFF#68 = some ([1, 2], some 0x40000000000000000#67) := by decide

/-- The command cycle of V58e, with `rst` = 1 beside `PUSH 3`. -/
def resetBesidePush : Cycle := { rst := true, cmdValid := true, cmd := 0x20000000000000003#68 }

-- V58e: reset wins, and there is no response
theorem test_reset_beats_command : step { holding [1, 2] with host := [resetBesidePush] }
    = .next { holding [] with host := [] } := by rfl

/-! ### Assembler (R41) -/

theorem test_assemble : assembleLine ['R', 'D', 'S', 'E', 'G', '\t', '0', 'x', 'f', 'F', ';']
      = .ok (some 0x600000000000000FF#68) ∧
    assembleLine [' ', ';', 'N', 'E', 'W'] = .ok none ∧
    assembleLine ['n', 'e', 'w', ' ', '1'] = .error .unknownMnemonic ∧
    assembleLine ['N', 'E', 'W'] = .error .missingOperand ∧
    assembleLine ['E', 'N', 'C', ' ', '1'] = .error .extraOperand ∧
    assembleLine ['N', 'E', 'W', ' ', '0', 'x'] = .error .badNumber ∧
    assembleLine ['N', 'E', 'W', ' ', '2', '5', '6'] = .error .outOfRange := by decide

/-! ### Witnesses: states and operands that meet each obligation's hypotheses -/

theorem witness_EncodeOfDecodeClearsIgnoredBits : decode 0x1FFFFFFFFFFFFFF05#68 = .command (.new 5) := by decide

theorem witness_DecoderFollowsTheOpcodeMap :
    ∀ op : BitVec 4, ((cmdWord op 0x123#64).extractLsb' 64 4).toNat = op.toNat := by decide

theorem witness_IgnoredOperandBitsHaveNoEffect :
    (∀ op : BitVec 4, op ≠ 4 → (cmdWord op 0x105#64).extractLsb' 64 4 = (cmdWord op 0x205#64).extractLsb' 64 4 ∧
      (cmdWord op 0x105#64).extractLsb' 0 8 = (cmdWord op 0x205#64).extractLsb' 0 8) ∧
    (0x40000000000000011#68).extractLsb' 64 4 = 4 := by decide

theorem witness_StepRunsTheDecodedCommand :
    ((holding [1]).present 0x20000000000000003#68).host = [Cycle.command 0x20000000000000003#68] ∧
    (Cycle.command 0x20000000000000003#68).rst = false ∧
    (Cycle.command 0x20000000000000003#68).cmdValid = true ∧
    decode (Cycle.command 0x20000000000000003#68).cmd = .command (.push 3) := by decide

/-- The opcode of a word. -/
def op (w : CmdWord) : Nat := (w.extractLsb' 64 4).toNat

theorem witness_ReservedOpcodeIsIllegal :
    op 0x05#68 = 0 ∧ op 0x80000000000000005#68 = 8 ∧ op 0xF0000000000000005#68 = 15 ∧
    (op 0x70000000000000005#68 = 7 ∧ (holding [1]).params.hasCat = false) ∧
    (op 0x10000000000000005#68 = 1 ∧ op 0x60000000000000005#68 = 6) ∧
    (op 0x70000000000000005#68 = 7 ∧ (blockOf 15 true [1]).params.hasCat = true) := by decide

theorem witness_ResetCycleGivesTheEmptyPath :
    { holding [1, 2] with host := [resetBesidePush] }.host = [resetBesidePush] ∧ resetBesidePush.rst = true := by
  decide

theorem witness_QuietCycleHoldsTheStore :
    ({ holding [1, 2] with host := [Cycle.quiet] }.host = [Cycle.quiet] ∧ Cycle.quiet.rst = false ∧
      Cycle.quiet.cmdValid = false) ∧ (holding [1, 2]).host = [] := by decide

theorem witness_EveryCycleEndsWithItsResponse :
    { holding [1, 2] with host := [Cycle.reset] }.host = Cycle.reset :: [] := by decide

theorem witness_NewStartsAPath :
    (0x1FFFFFFFFFFFFFF05#68).extractLsb' 64 4 = 1 ∧ 1 ≤ (blockOf 1 false []).params.segDepth ∧
    (127 : Byte).toNat ≤ 127 ∧ 127 < (128 : Byte).toNat := by decide

theorem witness_PushStoresTheWholeByte :
    (0x2FFFFFFFFFFFFFF05#68).extractLsb' 64 4 = 2 ∧
    (holding (List.replicate 14 1)).cnt ≠ (holding (List.replicate 14 1)).params.segDepth ∧
    (holding (List.replicate 15 1)).cnt = (holding (List.replicate 15 1)).params.segDepth := by decide

theorem witness_PushAppendsToThePath : (holding (List.replicate 14 1)).Inv ∧
    (holding (List.replicate 14 1)).cnt < (holding (List.replicate 14 1)).params.segDepth := by decide

theorem witness_RdcntAnswersTheCount : (0x5FFFFFFFFFFFFFFFF#68).extractLsb' 64 4 = 5 ∧
    (holding (List.replicate 15 1)).Inv := by decide

theorem witness_RdsegReadsOneLane : (0x6FFFFFFFFFFFFFF02#68).extractLsb' 64 4 = 6 ∧
    (2 : Byte).toNat < (holding [83, 2, 3]).cnt ∧ (holding [83, 2, 3]).cnt ≤ (3 : Byte).toNat := by decide

/-- A host that presents `PATH [127, 255, 3]`. -/
def presentingPath : State :=
  { holding [9] with host := (pathCommands [127, 255, 3]).map fun i => Cycle.command (encode i) }

theorem witness_SequenceLaw : presentingPath.Inv ∧ (127 : Byte).toNat ≤ 127 ∧
    [255, 3].length + 1 ≤ presentingPath.params.segDepth ∧
    presentingPath.host = (pathCommands (127 :: [255, 3])).map (fun i => Cycle.command (encode i)) ∧
    (14 : Ident).extractLsb' 0 4 = 14 ∧ 14 < presentingPath.params.segDepth := by decide

theorem witness_EncPacksIteratively : (0x3FFFFFFFFFFFFFFFF#68).extractLsb' 64 4 = 3 := by decide

theorem witness_EncClosedForm : 1 ≤ (holding [200]).cnt := by decide

-- In contract with no, one, and more segments; also for IdentifierBoundInContract and EncThenDecIsTheSamePath.
theorem witness_IdentifierLayoutInContract : InContract (holding []).path = true ∧
    InContract (holding (127 :: List.replicate 14 7)).path = true ∧
    1 ≤ (holding (127 :: List.replicate 14 7)).cnt ∧ 14 < (holding (127 :: List.replicate 14 7)).cnt := by decide

theorem witness_IdentifierBoundInContract : InContract (holding (127 :: List.replicate 14 7)).path = true := by decide

theorem witness_PackIsInjectiveInContract : InContract [127, 7] = true ∧ pack [127, 7] = pack [127, 7] := by decide

theorem witness_EncLosesNoBitUpToEighteen : (blockOf 18 false (List.replicate 18 255)).cnt ≤ 18 ∧
    1 ≤ (blockOf 18 false (List.replicate 18 255)).cnt := by decide

theorem witness_LengthFieldIsLengthModSixteen : 1 ≤ (blockOf 16 false (List.replicate 16 0)).cnt := by decide

theorem witness_MaskingMakesNoDifferenceInContract : InContract (127 :: List.replicate 14 7) = true := by decide

theorem witness_DecLoadsTheFields : (0x4FFFFFFFFFFFFFFFF#68).extractLsb' 64 4 = 4 ∧
    15 ≤ (holding [1]).params.segDepth := by decide

theorem witness_DecResultIsInContract : 15 ≤ (holding [1]).params.segDepth := by decide

theorem witness_DecThenEncClearsStrayBits : 15 ≤ (holding [1]).params.segDepth := by decide

theorem witness_EncThenDecIsTheSamePath : InContract (holding [127, 7]).path = true ∧
    15 ≤ (blockOf 255 false [3]).params.segDepth := by decide

theorem witness_ZeroLengthFieldEmptiesThePath : (0xFFFFFFFFFFFFFFF0 : Ident).extractLsb' 0 4 = 0 ∧
    (InContract [] = true ∧ (pack []).extractLsb' 0 4 = 0) := by decide

theorem witness_CatReadsTheDigitString : (0x7FFFFFFFFFFFFFFFF#68).extractLsb' 64 4 = 7 ∧
    (blockOf 15 true [1, 23]).params.hasCat = true := by decide

theorem witness_CatByStepwiseOverflow : (blockOf 15 true (List.replicate 7 255)).params.hasCat = true := by decide

theorem witness_CatCollides : ((blockOf 15 true [1, 23]).params.hasCat = true ∧ (blockOf 15 true [1, 23]).path = [1, 23]) ∧
    ((blockOf 15 true [12, 3]).params.hasCat = true ∧ (blockOf 15 true [12, 3]).path = [12, 3]) := by decide

theorem witness_HasCatDecidesOnlyCat : (holding [1]).params.hasCat = false ∧ Instr.enc ≠ .cat := by decide

theorem witness_ErrorsChangeNothing :
    step ((holding [5, 6]).present 0x100000000000000C8#68)
      = .next { holding [5, 6] with rsp := some ⟨.rangeExceeded, 0⟩ } ∧
    { holding [5, 6] with rsp := some (Response.mk .rangeExceeded 0) }.rsp = some ⟨.rangeExceeded, 0⟩ ∧
    Status.rangeExceeded ≠ .ok := ⟨rfl, rfl, by decide⟩

theorem witness_ReadersAndFailuresChangeNothing :
    (Instr.rdseg 3 = .enc ∨ Instr.rdseg 3 = .rdcnt ∨ (∃ k, Instr.rdseg 3 = .rdseg k) ∨ Instr.rdseg 3 = .cat) ∧
    exec (.new 200) (holding [5, 6]) = .next { holding [5, 6] with rsp := some ⟨.rangeExceeded, 0⟩ } ∧
    Status.rangeExceeded ≠ .ok := ⟨.inr (.inr (.inl ⟨3, rfl⟩)), rfl, by decide⟩

theorem witness_OnlyNewPushDecAndResetWrite :
    ((holding [1]).present 0x20000000000000003#68).host = Cycle.command 0x20000000000000003#68 :: [] ∧
    step ((holding [1]).present 0x20000000000000003#68)
      = .next { holding [1, 3] with rsp := some ⟨.ok, 0⟩ } ∧
    (holding [1, 3]).cnt ≠ ((holding [1]).present 0x20000000000000003#68).cnt := ⟨rfl, rfl, by decide⟩

theorem witness_EveryCommandWorksAfterReset : (holding [1]).params.Valid ∧
    (holding [1]).applyReset = (holding [1]).applyReset ∧ (127 : Byte).toNat ≤ 127 ∧
    (blockOf 255 true [1]).params.Valid ∧ (blockOf 255 true [1]).applyReset.params.hasCat = true := by decide

theorem witness_StepKeepsTheStoreInvariants : ((holding [1]).present 0x20000000000000003#68).Inv ∧
    step ((holding [1]).present 0x20000000000000003#68)
      = .next { holding [1, 3] with rsp := some ⟨.ok, 0⟩ } := ⟨by decide, rfl⟩

theorem witness_CountFitsItsRegister : (holding (List.replicate 15 1)).Inv ∧
    Params.Valid { segDepth := 255, hasCat := false } := by decide

theorem witness_ThePathDeterminesTheStore : (holding [1, 8]).Inv ∧
    (holding [1, 8]).params = ((holding [1, 8]).idle).params ∧
    (holding [1, 8]).path = ((holding [1, 8]).idle).path := by decide

theorem witness_ExecRefinesThePathMachine : (holding [1, 8]).Inv := by decide

theorem witness_DecimalOperandsAssemble :
    ['0'] = (if (0 : Nat) = 0 then ['0'] else (Nat.digits 10 0).reverse.map Nat.digitChar) ∧
    ['2', '5', '6'] = (if (256 : Nat) = 0 then ['0'] else (Nat.digits 10 256).reverse.map Nat.digitChar) := by
  decide

end Sys2Proof.Tests
end

