-- ==== Sys2Proof/Proofs/State.lean ====
section
/-! Proofs of the statements about the state (10_state.md): its invariants, what reads and failures leave unchanged, and
the path as all there is to the store. -/

namespace Sys2Proof.Machine

/-! ### The invariants (10_state.md R16) -/

theorem State.Inv.segDepth_ge {s : State} (h : s.Inv) : 15 ≤ s.params.segDepth := by
  obtain ⟨⟨hmin, -⟩, -⟩ := h
  exact hmin

theorem State.Inv.cnt_le {s : State} (h : s.Inv) : s.cnt ≤ s.params.segDepth := by
  obtain ⟨-, -, hcnt, -⟩ := h
  exact hcnt

theorem State.Inv.seg_length {s : State} (h : s.Inv) : s.seg.length = s.params.segDepth := by
  obtain ⟨-, hlen, -⟩ := h
  exact hlen

/-- A path that a command loads has at most 15 segments, so it fits every legal depth; an append happens only below the
depth. -/
theorem State.Inv.of_effect {i : Instr} {s t : State} (h : s.Inv) (he : Effect i s t) : t.Inv := by
  cases he with
  | raised e => exact h.raise e
  | answered d => exact h.respond .ok d
  | loaded p hp => exact (h.load p (hp.trans h.segDepth_ge)).respond .ok 0
  | appended v hc => exact (h.append v (Nat.lt_of_le_of_ne h.cnt_le hc)).respond .ok 0

theorem State.Inv.of_stepEffect {s t : State} (h : s.Inv) (he : StepEffect s t) : t.Inv := by
  cases he with
  | reset => exact h.takeCycle.applyReset
  | quiet => exact h.takeCycle.idle
  | rejected => exact h.takeCycle.raise .illegal
  | command i _ _ _ _ ht => exact h.takeCycle.of_effect ht

/-- Settles O48: each kind of step is made of operations that keep the invariants. -/
theorem stepKeepsTheStoreInvariants : Obligations.StepKeepsTheStoreInvariants :=
  fun _ _ h hstep => h.of_stepEffect (effect_of_step hstep)

/-- Settles O47. -/
theorem resetKeepsTheStoreInvariants : Obligations.ResetKeepsTheStoreInvariants := by
  refine ⟨by decide, List.length_replicate, Nat.zero_le _, fun k hk _ => ?_⟩
  exact List.getD_replicate 0 hk

/-! ### The count register (10_state.md R12) -/

theorem lt_two_pow_cntW {p : Params} {n : Nat} (h : n ≤ p.segDepth) : n < 2 ^ p.cntW :=
  calc n < p.segDepth + 1 := Nat.lt_succ_of_le h
    _ ≤ 2 ^ p.cntW := Nat.le_pow_clog (by decide) _

theorem cntW_le_eight {p : Params} (h : p.Valid) : p.cntW ≤ 8 := by
  obtain ⟨-, hmax⟩ := h
  exact Nat.clog_le_of_le_pow (show p.segDepth + 1 ≤ 2 ^ 8 by omega)

/-- SEG_DEPTH + 1 is `2 ^ 4` there. -/
theorem cntW_standard : Params.standard.cntW = 4 := Nat.clog_pow 2 4 (by decide)

/-- Settles O49. -/
theorem countFitsItsRegister : Obligations.CountFitsItsRegister :=
  ⟨fun _ h => lt_two_pow_cntW h.cnt_le, fun _ h => cntW_le_eight h, cntW_standard⟩

/-! ### The response port (10_state.md R15) -/

/-- Every command answers by driving the port, so nothing of the response before it is left. -/
theorem exec_withRsp (i : Instr) (s : State) (q : Option Response) : exec i { s with rsp := q } = exec i s := by
  cases i <;> rfl

theorem runWord_withRsp (w : CmdWord) (s : State) (q : Option Response) :
    runWord w { s with rsp := q } = runWord w s := by
  unfold runWord
  cases decode w with
  | command i => exact exec_withRsp i s q
  | rejected e => rfl

theorem runCycle_withRsp (c : Cycle) (s : State) (q : Option Response) :
    runCycle c { s with rsp := q } = runCycle c s := by
  unfold runCycle
  split
  · rfl
  · split
    · exact runWord_withRsp c.cmd s q
    · rfl

/-- Settles O43: the step takes its cycle from the host alone, and every kind of cycle writes the port. -/
theorem noResponseIsLatched : Obligations.NoResponseIsLatched :=
  fun s q => runCycle_withRsp s.nextCycle s.takeCycle q

/-! ### Reads and failures (10_state.md R19) -/

/-- A reader's effect is an answer or an error, and either writes only the port. -/
theorem Effect.eq_withRsp_of_reader {i : Instr} {s t : State} (h : Effect i s t)
    (hi : i = .enc ∨ i = .rdcnt ∨ (∃ k, i = .rdseg k) ∨ i = .cat) : ∃ r, t = { s with rsp := some r } := by
  cases h with
  | raised e => exact ⟨⟨e, 0⟩, rfl⟩
  | answered d => exact ⟨⟨.ok, d⟩, rfl⟩
  | loaded p _ hw => rcases hw with ⟨v, rfl⟩ | ⟨id, rfl⟩ <;> simp at hi
  | appended v _ hw => subst hw; simp at hi

/-- Of the four effects only a raised error has a status other than OK. -/
theorem Effect.eq_withRsp_of_failed {i : Instr} {s t : State} {r : Response} (h : Effect i s t)
    (hr : t.rsp = some r) (hf : r.status ≠ .ok) : t = { s with rsp := some r } := by
  cases h with
  | raised e => cases hr; rfl
  | answered | loaded | appended => cases hr; exact absurd rfl hf

/-- Settles O42: the next state is the old one but for the response, which the next execution does not read. -/
theorem readersAndFailuresChangeNothing : Obligations.ReadersAndFailuresChangeNothing := by
  constructor
  · intro i s hi
    obtain ⟨t, ht, he⟩ := exec_effect i s
    obtain ⟨r, rfl⟩ := he.eq_withRsp_of_reader hi
    exact ⟨r, ht, (exec_withRsp i s _).trans ht⟩
  · intro i s t r ht hr hf
    obtain rfl := (effect_of_exec ht).eq_withRsp_of_failed hr hf
    exact ⟨rfl, (exec_withRsp i s _).trans ht⟩

/-! ### The store and its path (10_state.md R13) -/

theorem State.path_getD (s : State) (k : Nat) : s.path.getD k 0 = if k < s.cnt then s.lane k else 0 := by
  rw [List.getD_eq_getElem?_getD, State.path_getElem?]
  split <;> rfl

/-- The lanes are those of a store into which the path has just been loaded. -/
theorem State.Inv.seg_eq_lanesOf {s : State} (h : s.Inv) : s.seg = lanesOf s.params.segDepth s.path := by
  apply List.ext_getElem
  · rw [h.seg_length, lanesOf_length]
  · intro k hk _
    have hlane : s.seg[k] = s.lane k := (List.getD_eq_getElem s.seg 0 hk).symm
    have hpath : s.lane k = s.path.getD k 0 := by
      rw [State.path_getD]
      split
      · rfl
      · next hc => exact h.lane_eq_zero k (Nat.le_of_not_lt hc)
    simp [lanesOf, hlane, hpath]

/-- Settles O50: the lanes and the count are both functions of the path. -/
theorem thePathDeterminesTheStore : Obligations.ThePathDeterminesTheStore := by
  intro s t hs ht hparams hpath
  constructor
  · rw [hs.seg_eq_lanesOf, ht.seg_eq_lanesOf, hparams, hpath]
  · rw [← s.path_length, ← t.path_length, hpath]

/-! ### The machine on abstract paths (10_state.md R13) -/

theorem State.Inv.load_path {s : State} (h : s.Inv) {p : List Byte} (hp : p.length ≤ 15) : (s.load p).path = p :=
  State.load_path s p (hp.trans h.segDepth_ge)

/-- The state shows what the machine on abstract paths answers: its path and its response. -/
def State.Shows (t : State) (a : List Byte × Response) : Prop := t.path = a.1 ∧ t.rsp = some a.2

theorem State.shows_raise (s : State) (e : Status) : (s.raise e).Shows (s.path, ⟨e, 0⟩) := ⟨rfl, rfl⟩

theorem State.shows_respond (s : State) (st : Status) (d : Ident) : (s.respond st d).Shows (s.path, ⟨st, d⟩) :=
  ⟨rfl, rfl⟩

/-- The commuting square of each command, on both sides of its condition. -/
theorem State.Inv.exec_shows_pathExec {s : State} (h : s.Inv) (i : Instr) :
    ∃ t, exec i s = .next t ∧ t.Shows (pathExec s.params s.path i) := by
  cases i with
  | new v =>
    by_cases hv : v.toNat ≤ 127
    · refine ⟨_, exec_new_of_inRange s hv, ?_⟩
      have hpath : (s.load [v]).path = [v] := h.load_path (by simp)
      simpa [pathExec, hv, hpath] using State.shows_respond (s.load [v]) .ok 0
    · refine ⟨_, exec_new_of_not_inRange s hv, ?_⟩
      simpa [pathExec, hv] using s.shows_raise .rangeExceeded
  | push v =>
    by_cases hc : s.cnt = s.params.segDepth
    · refine ⟨_, exec_push_of_eq v hc, ?_⟩
      simpa [pathExec, hc] using s.shows_raise .full
    · refine ⟨_, exec_push_of_ne v hc, ?_⟩
      have hlt : s.cnt < s.params.segDepth := Nat.lt_of_le_of_ne h.cnt_le hc
      have hpath : (s.append v).path = s.path ++ [v] := State.append_path s v (h.seg_length ▸ hlt)
      simpa [pathExec, hlt, hpath] using State.shows_respond (s.append v) .ok 0
  | enc => exact ⟨_, exec_enc s, s.shows_respond .ok _⟩
  | dec id =>
    refine ⟨_, exec_dec id s, ?_⟩
    have hpath : (s.load (unpack id)).path = unpack id :=
      h.load_path (by rw [unpack_length]; exact Nat.le_of_lt_succ (lenField_lt id))
    simpa [pathExec, hpath] using State.shows_respond (s.load (unpack id)) .ok 0
  | rdcnt =>
    refine ⟨_, exec_rdcnt s, ?_⟩
    simpa [pathExec] using s.shows_respond .ok (BitVec.ofNat 64 s.cnt)
  | rdseg k =>
    rcases Nat.lt_or_ge k.toNat s.cnt with hk | hk
    · refine ⟨_, exec_rdseg_of_lt hk, ?_⟩
      have hget : s.path[k.toNat]? = some (s.lane k.toNat) := by rw [State.path_getElem?, if_pos hk]
      simpa only [pathExec, hget] using s.shows_respond .ok ((s.lane k.toNat).setWidth 64)
    · refine ⟨_, exec_rdseg_of_le hk, ?_⟩
      have hget : s.path[k.toNat]? = none := by rw [State.path_getElem?, if_neg (Nat.not_lt.mpr hk)]
      simpa only [pathExec, hget] using s.shows_raise .index
  | cat =>
    cases hp : s.params.hasCat with
    | true =>
      refine ⟨_, exec_cat_of_present hp, ?_⟩
      simpa [pathExec, hp] using s.shows_respond .ok (catValue s.path)
    | false =>
      refine ⟨_, exec_cat_of_absent hp, ?_⟩
      simpa [pathExec, hp] using s.shows_raise .illegal

/-- Settles O51. -/
theorem execRefinesThePathMachine : Obligations.ExecRefinesThePathMachine := by
  intro i s h
  obtain ⟨t, ht, hpath, hrsp⟩ := h.exec_shows_pathExec i
  have he := effect_of_exec ht
  exact ⟨t, ht, hpath, hrsp, he.params_eq, he.host_eq⟩

end Sys2Proof.Machine
end

/-! Proofs of the statements about the encoding (30_encoding.md): command words, response words, one cycle, the layout
of an identifier, and the textual form of commands. -/

namespace Sys2Proof.Machine

/-! ### Decoding (30_encoding.md R34, R35) -/

/-- The command of this shape whose operand is read from the word (30_encoding.md R34). -/
def readOperand (w : CmdWord) : Instr → Instr
  | .new _ => .new (byteOperand w)
  | .push _ => .push (byteOperand w)
  | .enc => .enc
  | .dec _ => .dec (identOperand w)
  | .rdcnt => .rdcnt
  | .rdseg _ => .rdseg (byteOperand w)
  | .cat => .cat

/-- What the decoder answers to a command's opcode: that command, with the operand of the word. -/
theorem decode_of_opcode {w : CmdWord} {i : Instr} (h : opField w = i.opcode) :
    decode w = .command (readOperand w i) := by
  cases i <;> simp [decode, h, Instr.opcode, readOperand]

/-- A decoded command has the word's opcode; a word with any other opcode is rejected. -/
theorem opField_of_decode {w : CmdWord} {i : Instr} (h : decode w = .command i) : opField w = i.opcode := by
  by_cases hu : 1 ≤ (opField w).toNat ∧ (opField w).toNat ≤ 7
  · obtain ⟨j, hj, hop⟩ := decode_of_opcode_used w hu.1 hu.2
    cases hj.symm.trans h
    exact hop.symm
  · have hr := decode_of_opcode_reserved w (by omega)
    cases hr.symm.trans h

theorem readOperand_of_decode {w : CmdWord} {i : Instr} (h : decode w = .command i) : readOperand w i = i :=
  Decoded.command.inj ((decode_of_opcode (opField_of_decode h)).symm.trans h)

theorem readOperand_encode (i : Instr) : readOperand (encode i) i = i := by
  cases i <;> simp [readOperand, encode, Instr.arg]

/-- Settles O1: the opcode field of the encoded word selects the command's shape, and its operand field holds the
operand. -/
theorem decodeOfEncodeIsTheCommand : Obligations.DecodeOfEncodeIsTheCommand := by
  intro i
  have hop : opField (encode i) = i.opcode := opField_cmdWord _ _
  rw [decode_of_opcode hop, readOperand_encode]

/-- Settles O3. -/
theorem decoderFollowsTheOpcodeMap : Obligations.DecoderFollowsTheOpcodeMap := by
  intro w
  have used (i : Instr) (h : (opField w).toNat = i.opcode.toNat) : decode w = .command (readOperand w i) :=
    decode_of_opcode (BitVec.eq_of_toNat_eq h)
  rw [← byteOperand_eq]
  exact ⟨used (.new 0), used (.push 0), used .enc, used (.dec 0), used .rdcnt, used (.rdseg 0), used .cat,
    decode_of_opcode_reserved w⟩

/-! ### Ignored operand bits (30_encoding.md R34, R41) -/

theorem byteOperand_setWidth (w : CmdWord) : (byteOperand w).setWidth 64 = argField w &&& 0xFF#64 := by
  apply BitVec.eq_of_toNat_eq
  have hlt : (byteOperand w).toNat < 2 ^ 64 := Nat.lt_of_lt_of_le (byteOperand w).isLt (by decide)
  rw [BitVec.toNat_setWidth, Nat.mod_eq_of_lt hlt, byteOperand, BitVec.extractLsb'_toNat, Nat.shiftRight_zero,
    BitVec.toNat_and]
  exact (Nat.and_two_pow_sub_one_eq_mod _ 8).symm

theorem arg_readOperand (i : Instr) (w : CmdWord) : (readOperand w i).arg = argField w &&& i.argMask := by
  cases i with
  | new | push | rdseg => exact byteOperand_setWidth w
  | enc | rdcnt | cat => exact BitVec.and_zero.symm
  | dec => exact BitVec.and_allOnes.symm

theorem opField_and (x y : CmdWord) : opField (x &&& y) = opField x &&& opField y := BitVec.extractLsb'_and

theorem argField_and (x y : CmdWord) : argField (x &&& y) = argField x &&& argField y := BitVec.extractLsb'_and

theorem cmdWord_and (op op' : BitVec 4) (a a' : BitVec 64) :
    cmdWord op a &&& cmdWord op' a' = cmdWord (op &&& op') (a &&& a') := by
  rw [← cmdWord_fields (cmdWord op a &&& cmdWord op' a'), opField_and, argField_and]
  simp only [opField_cmdWord, argField_cmdWord]

/-- A mask with every opcode bit clears only operand bits. -/
theorem and_opcodeMask (w : CmdWord) (m : BitVec 64) :
    w &&& (0xF0000000000000000#68 ||| m.setWidth 68) = cmdWord (opField w) (argField w &&& m) := by
  have hmask : (0xF0000000000000000#68) = (BitVec.allOnes 4).setWidth 68 <<< 64 := by decide
  calc w &&& (0xF0000000000000000#68 ||| m.setWidth 68)
      = cmdWord (opField w) (argField w) &&& cmdWord (BitVec.allOnes 4) m := by rw [cmdWord_fields, hmask, cmdWord]
    _ = cmdWord (opField w) (argField w &&& m) := by rw [cmdWord_and, BitVec.and_allOnes]

/-- Settles O2: the encoded command has the word's opcode and the word's operand under the shape's mask. -/
theorem encodeOfDecodeClearsIgnoredBits : Obligations.EncodeOfDecodeClearsIgnoredBits := by
  intro w i h
  have harg : i.arg = argField w &&& i.argMask := by rw [← arg_readOperand, readOperand_of_decode h]
  rw [and_opcodeMask, encode, opField_of_decode h, harg]

/-- Settles O5: words with one opcode decode to one shape, whose operand is read from the bits they agree on. -/
theorem ignoredOperandBitsHaveNoEffect : Obligations.IgnoredOperandBitsHaveNoEffect := by
  intro w w' hop hbyte hident
  rw [← byteOperand_eq, ← byteOperand_eq] at hbyte
  change opField w = opField w' at hop
  change opField w = 1 ∨ opField w = 2 ∨ opField w = 6 → _ at hbyte
  change opField w = 4 → identOperand w = identOperand w' at hident
  by_cases hu : 1 ≤ (opField w).toNat ∧ (opField w).toNat ≤ 7
  · obtain ⟨i, -, hi⟩ := decode_of_opcode_used w hu.1 hu.2
    have hread : readOperand w i = readOperand w' i := by
      cases i with
      | new => exact congrArg Instr.new (hbyte (.inl hi.symm))
      | push => exact congrArg Instr.push (hbyte (.inr (.inl hi.symm)))
      | rdseg => exact congrArg Instr.rdseg (hbyte (.inr (.inr hi.symm)))
      | dec => exact congrArg Instr.dec (hident hi.symm)
      | enc | rdcnt | cat => rfl
    rw [decode_of_opcode hi.symm, decode_of_opcode (hop.symm.trans hi.symm), hread]
  · rw [decode_of_opcode_reserved w (by omega), decode_of_opcode_reserved w' (by rw [← hop]; omega), hop]

/-- Settles O4. -/
theorem writtenWordsDecode : Obligations.WrittenWordsDecode := by
  unfold Obligations.WrittenWordsDecode
  decide

/-! ### The response word (30_encoding.md R33; 60_exceptions.md R81) -/

theorem Response.word_status (r : Response) : r.word.extractLsb' 64 3 = r.status.code := by
  unfold Response.word
  ext j hj
  simp [show 64 + j < 67 by omega, BitVec.getLsbD_eq_getElem, hj]

theorem Response.word_data (r : Response) : r.word.extractLsb' 0 64 = r.data := by
  unfold Response.word
  ext j hj
  simp [BitVec.getLsbD_shiftLeft, BitVec.getLsbD_setWidth, hj]
  omega

theorem Status.code_le_four (st : Status) : st.code.toNat ≤ 4 := by
  cases st <;> decide

theorem Status.code_injective : Function.Injective Status.code := by
  intro a b
  cases a <;> cases b <;> decide

/-- Both fields of a response are read back from its word. -/
theorem Response.word_injective : Function.Injective Response.word := by
  intro r r' h
  have hstatus : r.status = r'.status := Status.code_injective (by rw [← r.word_status, ← r'.word_status, h])
  have hdata : r.data = r'.data := by rw [← r.word_data, ← r'.word_data, h]
  cases r
  cases r'
  congr

/-- Settles O6. -/
theorem responseWordLayout : Obligations.ResponseWordLayout :=
  ⟨fun r => ⟨r.word_status, r.word_data⟩, ⟨rfl, rfl, rfl, rfl, rfl⟩,
    fun r => r.word_status.symm ▸ r.status.code_le_four, fun _ _ h => Response.word_injective h⟩

/-! ### One cycle (30_encoding.md R30, R31) -/

theorem State.nextCycle_of_host {s : State} {c : Cycle} {rest : List Cycle} (h : s.host = c :: rest) :
    s.nextCycle = c := by
  rw [State.nextCycle, h, List.headD_cons]

theorem State.takeCycle_of_host {s : State} {c : Cycle} {rest : List Cycle} (h : s.host = c :: rest) :
    s.takeCycle = { s with host := rest } := by
  rw [State.takeCycle, h, List.tail_cons]

/-- Settles O7. -/
theorem stepRunsTheDecodedCommand : Obligations.StepRunsTheDecodedCommand := by
  intro s c rest i hhost hrst hvalid hdec
  obtain rfl := State.nextCycle_of_host hhost
  rw [step_of_command hrst hvalid hdec, State.takeCycle_of_host hhost]

theorem StepEffect.host_eq {s t : State} (h : StepEffect s t) : t.host = s.host.tail := by
  cases h with
  | reset | quiet | rejected => rfl
  | command i _ _ _ _ ht => exact ht.host_eq

theorem StepEffect.params_eq {s t : State} (h : StepEffect s t) : t.params = s.params := by
  cases h with
  | reset | quiet | rejected => rfl
  | command i _ _ _ _ ht => exact ht.params_eq

theorem StepEffect.rspValid_eq {s t : State} (h : StepEffect s t) :
    t.rspValid = (s.nextCycle.cmdValid && !s.nextCycle.rst) := by
  cases h with
  | reset hrst => simp [State.rspValid, hrst]
  | quiet hrst hvalid => simp [State.rspValid, hvalid]
  | rejected e hrst hvalid => simp [State.rspValid, hrst, hvalid]
  | command i _ hrst hvalid _ ht => simp [State.rspValid, hrst, hvalid, ht.rsp_isSome]

/-- Settles O11: each kind of step takes the cycle, keeps the parameters, and answers only a presented command. -/
theorem everyCycleEndsWithItsResponse : Obligations.EveryCycleEndsWithItsResponse := by
  intro s c rest hhost
  obtain ⟨t, ht, he⟩ := step_effect s
  have htail : s.host.tail = rest := by rw [hhost, List.tail_cons]
  rw [← State.nextCycle_of_host hhost]
  exact ⟨t, ht, he.host_eq.trans htail, he.params_eq, he.rspValid_eq⟩

/-! ### Paths in contract (00_scope.md section 7) -/

theorem inContract_cons_iff {first : Byte} {rest : List Byte} : InContract (first :: rest) = true ↔
    rest.length + 1 ≤ 15 ∧ first.toNat ≤ 127 ∧ ∀ v ∈ rest, v.toNat ≤ 7 := by
  simp [InContract, and_assoc]

theorem length_le_of_inContract {p : List Byte} (h : InContract p = true) : p.length ≤ 15 := by
  cases p with
  | nil => exact Nat.zero_le 15
  | cons first rest =>
    obtain ⟨hlen, -, -⟩ := inContract_cons_iff.mp h
    exact hlen

theorem tail_le_of_inContract {p : List Byte} (h : InContract p = true) : ∀ v ∈ p.tail, v.toNat ≤ 7 := by
  cases p with
  | nil => simp
  | cons first rest =>
    obtain ⟨-, -, hrest⟩ := inContract_cons_iff.mp h
    exact hrest

theorem first_le_of_inContract {p : List Byte} (h : InContract p = true) : (p.getD 0 0).toNat ≤ 127 := by
  cases p with
  | nil => decide
  | cons first rest =>
    obtain ⟨-, hfirst, -⟩ := inContract_cons_iff.mp h
    exact hfirst

theorem inContract_concat {p : List Byte} (hp : InContract p = true) (hne : p ≠ []) (hl : p.length < 15) {v : Byte}
    (hv : v.toNat ≤ 7) : InContract (p ++ [v]) = true := by
  obtain ⟨first, rest, rfl⟩ := List.exists_cons_of_ne_nil hne
  obtain ⟨-, hfirst, hrest⟩ := inContract_cons_iff.mp hp
  rw [List.cons_append, inContract_cons_iff]
  refine ⟨by simpa using hl, hfirst, fun u hu => ?_⟩
  rcases List.mem_append.mp hu with hu | hu
  · exact hrest u hu
  · exact List.mem_singleton.mp hu ▸ hv

/-! ### The accumulator without a width: a later segment within its 3 bits is one more octal digit -/

@[simp] theorem natSegs_singleton (v : Byte) : natSegs [v] = v.toNat := by simp [natSegs]

theorem natSegs_concat_of_le (p : List Byte) {v : Byte} (hv : v.toNat ≤ 7) :
    natSegs (p ++ [v]) = natSegs p * 8 + v.toNat := by
  rw [natSegs_concat, ← Nat.shiftLeft_add_eq_or_of_lt (show v.toNat < 2 ^ 3 by omega), Nat.shiftLeft_eq]

/-- Shifting the later segments out leaves the accumulator of the earlier ones. -/
theorem natSegs_append_div (p q : List Byte) (hq : ∀ v ∈ q, v.toNat ≤ 7) :
    natSegs (p ++ q) / 2 ^ (3 * q.length) = natSegs p := by
  induction q using List.reverseRecOn with
  | nil => simp
  | append_singleton q v ih =>
    have hv : v.toNat ≤ 7 := hq v (by simp)
    have hpow : 2 ^ (3 * (q ++ [v]).length) = 8 * 2 ^ (3 * q.length) := by
      rw [List.length_append, List.length_singleton, Nat.mul_add, Nat.pow_add, Nat.mul_comm]
    rw [← List.append_assoc, natSegs_concat_of_le _ hv, hpow, ← Nat.div_div_eq_div_mul,
      show (natSegs (p ++ q) * 8 + v.toNat) / 8 = natSegs (p ++ q) by omega]
    exact ih fun u hu => hq u (by simp [hu])

theorem natSegs_div_of_inContract {p : List Byte} (h : InContract p = true) (k : Nat) :
    natSegs p / 2 ^ (3 * (p.length - (k + 1))) = natSegs (p.take (k + 1)) := by
  have hdrop : ∀ v ∈ p.drop (k + 1), v.toNat ≤ 7 := fun v hv => by
    rw [← List.drop_tail] at hv
    exact tail_le_of_inContract h v (List.mem_of_mem_drop hv)
  have := natSegs_append_div (p.take (k + 1)) (p.drop (k + 1)) hdrop
  rwa [List.take_append_drop, List.length_drop] at this

/-- The accumulator of the segments up to a later one ends with that segment. -/
theorem natSegs_take_mod_of_inContract {p : List Byte} (h : InContract p = true) {k : Nat} (hk : k + 1 < p.length) :
    natSegs (p.take (k + 2)) % 8 = (p.getD (k + 1) 0).toNat := by
  have htail : k < p.tail.length := by rw [List.length_tail]; omega
  have hv : p[k + 1].toNat ≤ 7 := by
    rw [← List.getElem_tail htail]
    exact tail_le_of_inContract h _ (List.getElem_mem htail)
  rw [List.take_succ_eq_append_getElem hk, natSegs_concat_of_le _ hv, List.getD_eq_getElem p 0 hk]
  omega

/-! ### The identifier of a path in contract (30_encoding.md R36) -/

theorem pack_toNat_of_inContract {p : List Byte} (h : InContract p = true) (hne : p ≠ []) :
    (pack p).toNat = natSegs p * 16 + p.length := by
  have hl := length_le_of_inContract h
  rw [pack_toNat p hne (by omega), ← Nat.shiftLeft_add_eq_or_of_lt (show p.length < 2 ^ 4 by omega), Nat.shiftLeft_eq]

/-- The shift to the field of segment k drops the length field and the fields of the segments after it. -/
theorem pack_div_of_inContract {p : List Byte} (h : InContract p = true) {k : Nat} (hk : k < p.length) :
    (pack p).toNat / 2 ^ (3 * (p.length - k) + 1) = natSegs (p.take (k + 1)) := by
  have hl := length_le_of_inContract h
  have hpow : 2 ^ (3 * (p.length - k) + 1) = 16 * 2 ^ (3 * (p.length - (k + 1))) := by
    rw [show 3 * (p.length - k) + 1 = 4 + 3 * (p.length - (k + 1)) by omega, Nat.pow_add]
  rw [pack_toNat_of_inContract h (List.ne_nil_of_length_pos (by omega)), hpow, ← Nat.div_div_eq_div_mul,
    show (natSegs p * 16 + p.length) / 16 = natSegs p by omega, natSegs_div_of_inContract h k]

theorem pack_div_first_of_inContract {p : List Byte} (h : InContract p = true) (hne : p ≠ []) :
    (pack p).toNat / 2 ^ (3 * p.length + 1) = (p.getD 0 0).toNat := by
  obtain ⟨first, rest, rfl⟩ := List.exists_cons_of_ne_nil hne
  simpa using pack_div_of_inContract h (Nat.succ_pos rest.length)

theorem pack_lt_of_inContract {p : List Byte} (h : InContract p = true) (hne : p ≠ []) :
    (pack p).toNat < 2 ^ (3 * p.length + 8) := by
  have hdiv : (pack p).toNat / 2 ^ (3 * p.length + 1) < 2 ^ 7 := by
    rw [pack_div_first_of_inContract h hne]
    exact Nat.lt_succ_of_le (first_le_of_inContract h)
  rw [show 3 * p.length + 8 = 7 + (3 * p.length + 1) by omega, Nat.pow_add]
  exact (Nat.div_lt_iff_lt_mul (Nat.two_pow_pos _)).mp hdiv

theorem two_pow_three_mul_succ (m c : Nat) : 2 ^ (3 * (m + 1) + c) = 8 * 2 ^ (3 * m + c) := by
  rw [show 3 * (m + 1) + c = 3 + (3 * m + c) by omega, Nat.pow_add]

/-- The fields' values at their places, each a later segment's step away from the next. -/
theorem natSegs_map_range (f : Nat → Byte) (n : Nat) (h : ∀ k, 1 ≤ k → k ≤ n → (f k).toNat ≤ 7) :
    natSegs ((List.range (n + 1)).map f) * 16 = (f 0).toNat * 2 ^ (3 * (n + 1) + 1)
      + ∑ k ∈ Finset.Ico 1 (n + 1), (f k).toNat * 2 ^ (3 * (n + 1 - k) + 1) := by
  induction n with
  | zero => simp
  | succ n ih =>
    have hsum : ∑ k ∈ Finset.Ico 1 (n + 1), (f k).toNat * 2 ^ (3 * (n + 1 + 1 - k) + 1)
        = 8 * ∑ k ∈ Finset.Ico 1 (n + 1), (f k).toNat * 2 ^ (3 * (n + 1 - k) + 1) := by
      rw [Finset.mul_sum]
      refine Finset.sum_congr rfl fun k hk => ?_
      have hkn := (Finset.mem_Ico.mp hk).2
      rw [show n + 1 + 1 - k = n + 1 - k + 1 by omega, two_pow_three_mul_succ, Nat.mul_left_comm]
    have ih := ih fun k h1 hn => h k h1 (by omega)
    rw [List.range_succ, List.map_append, List.map_singleton, natSegs_concat_of_le _ (h (n + 1) (by omega) le_rfl),
      Finset.sum_Ico_succ_top (by omega), hsum, two_pow_three_mul_succ (n + 1), Nat.mul_left_comm,
      Nat.add_sub_cancel_left]
    omega

theorem State.path_eq_nil {s : State} (h : s.cnt = 0) : s.path = [] :=
  List.eq_nil_of_length_eq_zero (s.path_length.trans h)

theorem State.path_ne_nil {s : State} (h : 1 ≤ s.cnt) : s.path ≠ [] :=
  List.ne_nil_of_length_pos (s.path_length.symm ▸ h)

theorem State.path_getD_of_lt {s : State} {k : Nat} (hk : k < s.cnt) : s.path.getD k 0 = s.lane k := by
  rw [State.path_getD, if_pos hk]

section PathInContract

variable {s : State} (h : InContract s.path = true)

include h

theorem State.lane_zero_le (hc : 1 ≤ s.cnt) : (s.lane 0).toNat ≤ 127 :=
  State.path_getD_of_lt hc ▸ first_le_of_inContract h

theorem State.later_lane_eq {k : Nat} (h1 : 1 ≤ k) (hk : k < s.cnt) :
    (s.lane k).toNat = natSegs (s.path.take (k + 1)) % 8 := by
  obtain ⟨j, rfl⟩ := Nat.exists_eq_add_of_le' h1
  rw [← State.path_getD_of_lt hk, natSegs_take_mod_of_inContract h (s.path_length.symm ▸ hk)]

theorem State.later_lane_le {k : Nat} (h1 : 1 ≤ k) (hk : k < s.cnt) : (s.lane k).toNat ≤ 7 := by
  rw [State.later_lane_eq h h1 hk]
  omega

theorem pack_path_lengthField (hc : 1 ≤ s.cnt) : ((pack s.path).extractLsb' 0 4).toNat = s.cnt := by
  have hlen := length_le_of_inContract h
  calc lenField (pack s.path) = s.path.length % 16 := lenField_pack s.path (State.path_ne_nil hc)
    _ = s.path.length := Nat.mod_eq_of_lt (Nat.lt_succ_of_le hlen)
    _ = s.cnt := s.path_length

theorem pack_path_firstField (hc : 1 ≤ s.cnt) :
    ((pack s.path).extractLsb' (3 * s.cnt + 1) 7).toNat = (s.lane 0).toNat := by
  have hdiv := pack_div_first_of_inContract h (State.path_ne_nil hc)
  rw [State.path_length, State.path_getD_of_lt hc] at hdiv
  rw [BitVec.extractLsb'_toNat, Nat.shiftRight_eq_div_pow, hdiv]
  exact Nat.mod_eq_of_lt (Nat.lt_succ_of_le (State.lane_zero_le h hc))

theorem pack_path_laterField {k : Nat} (h1 : 1 ≤ k) (hk : k < s.cnt) :
    ((pack s.path).extractLsb' (3 * (s.cnt - k) + 1) 3).toNat = (s.lane k).toNat := by
  have hdiv := pack_div_of_inContract h (s.path_length.symm ▸ hk)
  rw [State.path_length] at hdiv
  rw [BitVec.extractLsb'_toNat, Nat.shiftRight_eq_div_pow, hdiv, State.later_lane_eq h h1 hk]

theorem pack_path_above (hc : 1 ≤ s.cnt) : pack s.path >>> (3 * s.cnt + 8) = 0 := by
  have hlt := pack_lt_of_inContract h (State.path_ne_nil hc)
  rw [State.path_length] at hlt
  apply BitVec.eq_of_toNat_eq
  rw [BitVec.toNat_ushiftRight, Nat.shiftRight_eq_div_pow, Nat.div_eq_of_lt hlt]
  rfl

theorem pack_path_eq_sum (hc : 1 ≤ s.cnt) :
    (pack s.path).toNat = (s.lane 0).toNat * 2 ^ (3 * s.cnt + 1)
      + (∑ k ∈ Finset.Ico 1 s.cnt, (s.lane k).toNat * 2 ^ (3 * (s.cnt - k) + 1)) + s.cnt := by
  obtain ⟨n, hn⟩ := Nat.exists_eq_add_of_le' hc
  have hsum := natSegs_map_range s.lane n fun k h1 hk => State.later_lane_le h h1 (by omega)
  rw [← hn] at hsum
  rw [pack_toNat_of_inContract h (State.path_ne_nil hc), State.path_length, ← hsum]
  rfl

end PathInContract

/-- Settles O21: field by field. -/
theorem identifierLayoutInContract : Obligations.IdentifierLayoutInContract := by
  intro s h
  refine ⟨pack s.path, exec_enc s, fun h0 => by rw [State.path_eq_nil h0, pack], fun hc => ?_⟩
  exact ⟨pack_path_lengthField h hc, pack_path_firstField h hc, fun _ h1 hk => pack_path_laterField h h1 hk,
    pack_path_above h hc, pack_path_eq_sum h hc⟩

/-! ### Canonical identifiers (30_encoding.md R39) -/

theorem extractSegs_one (f : Nat) (rem : Ident) : extractSegs f 1 rem = [firstWindow rem] := rfl

theorem extractSegs_add_two (f n : Nat) (rem : Ident) :
    extractSegs f (n + 2) rem = laterField rem :: extractSegs f (n + 1) (rem >>> 3) := rfl

theorem inContract_reverse_extractSegs (f n : Nat) (rem : Ident) (hn : n + 1 ≤ 15) :
    InContract (extractSegs f (n + 1) rem).reverse = true := by
  induction n generalizing rem with
  | zero =>
    have hfirst : (firstWindow rem).toNat ≤ 127 := by rw [firstWindow_toNat]; omega
    rw [extractSegs_one, List.reverse_singleton, inContract_cons_iff]
    exact ⟨hn, hfirst, by simp⟩
  | succ n ih =>
    have hlater : (laterField rem).toNat ≤ 7 := by rw [laterField_toNat]; omega
    rw [extractSegs_add_two, List.reverse_cons]
    exact inContract_concat (ih (rem >>> 3) (by omega)) (List.ne_nil_of_length_pos (by simp)) (by simpa using hn) hlater

theorem inContract_unpack (id : Ident) : InContract (unpack id) = true := by
  have hl := lenField_lt id
  unfold unpack unpackWith
  cases h : lenField id with
  | zero => rfl
  | succ n => exact inContract_reverse_extractSegs _ n _ (by omega)

/-- The accumulator of the extracted segments is the remaining value up to the first segment's window. -/
theorem natSegs_reverse_extractSegs (f n : Nat) (rem : Ident) :
    natSegs (extractSegs f (n + 1) rem).reverse = rem.toNat % 2 ^ (3 * n + 7) := by
  induction n generalizing rem with
  | zero => simp [extractSegs_one, firstWindow_toNat]
  | succ n ih =>
    have hlater : (laterField rem).toNat ≤ 7 := by rw [laterField_toNat]; omega
    rw [extractSegs_add_two, List.reverse_cons, natSegs_concat_of_le _ hlater, ih, laterField_toNat,
      BitVec.toNat_ushiftRight, Nat.shiftRight_eq_div_pow, two_pow_three_mul_succ, Nat.mod_mul, Nat.mul_comm,
      Nat.add_comm]

/-- Packing what was unpacked keeps the identifier up to the field of lane 0 and clears the rest. -/
theorem pack_unpack_toNat {id : Ident} (h : 1 ≤ lenField id) :
    (pack (unpack id)).toNat = id.toNat % 2 ^ (3 * lenField id + 8) := by
  obtain ⟨n, hn⟩ := Nat.exists_eq_add_of_le' h
  have hpow : 2 ^ (3 * (n + 1) + 8) = 16 * 2 ^ (3 * n + 7) := by
    rw [show 3 * (n + 1) + 8 = 4 + (3 * n + 7) by omega, Nat.pow_add]
  have hsegs : natSegs (unpack id) = id.toNat / 16 % 2 ^ (3 * n + 7) := by
    rw [unpack, unpackWith, hn, natSegs_reverse_extractSegs, BitVec.toNat_ushiftRight, Nat.shiftRight_eq_div_pow]
    rfl
  rw [pack_toNat_of_inContract (inContract_unpack id) (List.ne_nil_of_length_pos (by rwa [unpack_length])),
    unpack_length, hsegs, hn, hpow, Nat.mod_mul, ← lenField_eq, hn, Nat.mul_comm, Nat.add_comm]

theorem canonical_pack {p : List Byte} (h : InContract p = true) : Canonical (pack p) := by
  cases p with
  | nil => exact .inl rfl
  | cons first rest =>
    have hne : first :: rest ≠ [] := List.cons_ne_nil _ _
    have hlen : lenField (pack (first :: rest)) = (first :: rest).length := by
      rw [lenField_pack _ hne, Nat.mod_eq_of_lt (Nat.lt_succ_of_le (length_le_of_inContract h))]
    refine .inr ⟨?_, ?_⟩
    · rw [hlen]
      exact Nat.succ_pos _
    · rw [hlen]
      exact pack_lt_of_inContract h hne

theorem pack_unpack_of_canonical {id : Ident} (h : Canonical id) : pack (unpack id) = id := by
  rcases h with rfl | ⟨h1, hlt⟩
  · rfl
  · exact BitVec.eq_of_toNat_eq ((pack_unpack_toNat h1).trans (Nat.mod_eq_of_lt hlt))

/-- Settles O33: a canonical identifier is packed from the path it unpacks to. -/
theorem canonicalIdentifiersAreThePacked : Obligations.CanonicalIdentifiersAreThePacked := by
  intro id
  constructor
  · exact fun h => ⟨unpack id, inContract_unpack id, pack_unpack_of_canonical h⟩
  · rintro ⟨p, hp, rfl⟩
    exact canonical_pack hp

/-! ### Lines of text (30_encoding.md R41, R42) -/

/-- Settles O52. -/
theorem writtenLinesAssemble : Obligations.WrittenLinesAssemble := by
  unfold Obligations.WrittenLinesAssemble
  decide

/-! ### Lines of a mnemonic and one operand -/

/-- A word: some characters, and none of them a separator or the start of a comment. -/
abbrev IsWord (w : List Char) : Prop := w ≠ [] ∧ ∀ c ∈ w, c ≠ ' ' ∧ c ≠ '\t' ∧ c ≠ ';'

theorem IsWord.ne_semicolon {w : List Char} (h : IsWord w) {c : Char} (hc : c ∈ w) : c ≠ ';' := by
  obtain ⟨-, hchars⟩ := h
  obtain ⟨-, -, hne⟩ := hchars c hc
  exact hne

theorem stripComment_of_forall_ne {line : List Char} (h : ∀ c ∈ line, c ≠ ';') : stripComment line = line :=
  List.takeWhile_eq_self_iff.mpr fun c hc => decide_eq_true (h c hc)

theorem splitWords_blank (rest : List Char) : splitWords (' ' :: rest) = splitWords rest := by
  simp [splitWords]

/-- One more character in front of a text's first word. -/
theorem splitWords_cons_of_cons {c d : Char} {rest w : List Char} {more : List (List Char)}
    (hc : c ≠ ' ' ∧ c ≠ '\t') (hd : d ≠ ' ' ∧ d ≠ '\t') (h : splitWords (d :: rest) = w :: more) :
    splitWords (c :: d :: rest) = (c :: w) :: more := by
  rw [splitWords, h]
  simp [hc, hd]

/-- A word that ends the text or stands before a space is the first of the text's words. -/
theorem splitWords_append {w rest : List Char} (hw : IsWord w) (hrest : ∀ d ∈ rest.head?, d = ' ') :
    splitWords (w ++ rest) = w :: splitWords rest := by
  obtain ⟨hne, hchars⟩ := hw
  induction w with
  | nil => exact absurd rfl hne
  | cons c w ih =>
    obtain ⟨hsp, htab, -⟩ := hchars c (by simp)
    cases w with
    | nil =>
      cases rest with
      | nil => simp [splitWords, hsp, htab]
      | cons d rest =>
        obtain rfl := hrest d rfl
        simp [splitWords, hsp, htab]
    | cons d w =>
      obtain ⟨hdsp, hdtab, -⟩ := hchars d (by simp)
      exact splitWords_cons_of_cons ⟨hsp, htab⟩ ⟨hdsp, hdtab⟩
        (ih (List.cons_ne_nil _ _) fun u hu => hchars u (List.mem_cons_of_mem c hu))

theorem splitWords_word {w : List Char} (hw : IsWord w) : splitWords w = [w] := by
  have h : splitWords (w ++ []) = w :: splitWords [] := splitWords_append hw (by simp)
  rwa [List.append_nil] at h

theorem splitWords_word_blank_word {m w : List Char} (hm : IsWord m) (hw : IsWord w) :
    splitWords (m ++ ' ' :: w) = [m, w] := by
  rw [splitWords_append hm (by simp), splitWords_blank, splitWords_word hw]

theorem parseLine_word_word {m w : List Char} {shape : AsmShape} (hm : IsWord m) (hw : IsWord w)
    (hshape : mnemonicShape m = some shape) :
    parseLine (m ++ ' ' :: w) = (parseWords shape [w]).map some := by
  have hcomment : ∀ c ∈ m ++ ' ' :: w, c ≠ ';' := by
    intro c hc
    rcases List.mem_append.mp hc with hc | hc
    · exact hm.ne_semicolon hc
    · rcases List.mem_cons.mp hc with rfl | hc
      · decide
      · exact hw.ne_semicolon hc
  rw [parseLine, stripComment_of_forall_ne hcomment, splitWords_word_blank_word hm hw]
  simp [hshape]

/-! ### Decimal numbers -/

/-- The decimal digits of a number, most significant first, as text has them. -/
def textDigits (n : Nat) : List Nat := if n = 0 then [0] else (Nat.digits 10 n).reverse

theorem textDigits_ne_nil (n : Nat) : textDigits n ≠ [] := by
  unfold textDigits
  split
  · exact List.cons_ne_nil _ _
  · next h => simpa [Nat.digits_eq_nil_iff_eq_zero] using h

theorem textDigits_lt {n d : Nat} (h : d ∈ textDigits n) : d < 10 := by
  unfold textDigits at h
  split at h
  · rw [List.mem_singleton.mp h]
    decide
  · exact Nat.digits_lt_base (by decide) (List.mem_reverse.mp h)

theorem digitsValue_textDigits (n : Nat) : digitsValue (textDigits n) = n := by
  unfold textDigits
  split
  · next h => exact h.symm
  · rw [digitsValue_eq_ofDigits, List.reverse_reverse, Nat.ofDigits_digits]

theorem map_digitChar_textDigits (n : Nat) : (textDigits n).map Nat.digitChar =
    if n = 0 then ['0'] else (Nat.digits 10 n).reverse.map Nat.digitChar := by
  unfold textDigits
  split <;> rfl

theorem decimalDigit_digitChar {d : Nat} (h : d < 10) : decimalDigit d.digitChar = some d := by
  revert d
  decide

/-- What a digit's character is not: a separator, the start of a comment, or the `x` of `0x`. -/
theorem digitChar_ne {d : Nat} (h : d < 10) :
    (d.digitChar ≠ ' ' ∧ d.digitChar ≠ '\t' ∧ d.digitChar ≠ ';') ∧ d.digitChar ≠ 'x' := by
  revert d
  decide

theorem parseDigits_map_digitChar {ds : List Nat} (h : ∀ d ∈ ds, d < 10) (acc : Nat) :
    parseDigits 10 decimalDigit acc (ds.map Nat.digitChar) = some (ds.foldl (fun n d => 10 * n + d) acc) := by
  induction ds generalizing acc with
  | nil => rfl
  | cons d ds ih =>
    have hd := decimalDigit_digitChar (h d (by simp))
    simp [parseDigits, hd, ih fun e he => h e (List.mem_cons_of_mem d he)]

/-- A second character other than `x` makes the number decimal. -/
theorem parseNumber_map_digitChar {ds : List Nat} (hne : ds ≠ []) (h : ∀ d ∈ ds, d < 10) :
    parseNumber (ds.map Nat.digitChar) = some (digitsValue ds) := by
  rw [digitsValue, ← parseDigits_map_digitChar h]
  match ds, hne with
  | [d], _ => rfl
  | d :: e :: ds, _ =>
    have hx : e.digitChar ≠ 'x' := (digitChar_ne (h e (by simp))).2
    simp [parseNumber, hx]

theorem isWord_map_digitChar {ds : List Nat} (hne : ds ≠ []) (h : ∀ d ∈ ds, d < 10) :
    IsWord (ds.map Nat.digitChar) := by
  refine ⟨by simpa using hne, fun c hc => ?_⟩
  obtain ⟨d, hd, rfl⟩ := List.mem_map.mp hc
  exact (digitChar_ne (h d hd)).1

theorem numberOperand_textDigits (width : Nat) (op : BitVec width → Instr) (n : Nat) :
    numberOperand width op ((textDigits n).map Nat.digitChar) =
      if n < 2 ^ width then .ok (op (BitVec.ofNat width n)) else .error .outOfRange := by
  rw [numberOperand, parseNumber_map_digitChar (textDigits_ne_nil n) fun _ => textDigits_lt, digitsValue_textDigits]

/-- A mnemonic whose operand shape is a number of `width` bits, before a number in decimal. -/
theorem parseLine_decimal (m : List Char) (shape : AsmShape) {width : Nat} {op : BitVec width → Instr}
    (hm : IsWord m) (hshape : mnemonicShape m = some shape)
    (hparse : ∀ w, parseWords shape [w] = numberOperand width op w) (n : Nat) :
    parseLine (m ++ ' ' :: (textDigits n).map Nat.digitChar) =
      if n < 2 ^ width then .ok (some (op (BitVec.ofNat width n))) else .error .outOfRange := by
  have hw := isWord_map_digitChar (textDigits_ne_nil n) fun _ => textDigits_lt
  rw [parseLine_word_word hm hw hshape, hparse, numberOperand_textDigits]
  split <;> rfl

/-- Settles O53: each of the four mnemonics is a word whose shape is a number of 8 or 64 bits. -/
theorem decimalOperandsAssemble : Obligations.DecimalOperandsAssemble := by
  rintro n text rfl
  rw [← map_digitChar_textDigits]
  exact ⟨parseLine_decimal ['N', 'E', 'W'] (.byte .new) (by simp [IsWord]) rfl (fun _ => rfl) n,
    parseLine_decimal ['P', 'U', 'S', 'H'] (.byte .push) (by simp [IsWord]) rfl (fun _ => rfl) n,
    parseLine_decimal ['R', 'D', 'S', 'E', 'G'] (.byte .rdseg) (by simp [IsWord]) rfl (fun _ => rfl) n,
    parseLine_decimal ['D', 'E', 'C'] (.ident .dec) (by simp [IsWord]) rfl (fun _ => rfl) n⟩

end Sys2Proof.Machine

/-! Proofs of the statements about starting, appending to and reading back a path (40_path_ops.md). -/

namespace Sys2Proof.Machine

/-! ### The range check and NEW (40_path_ops.md R45, R46) -/

theorem inRange_iff_le (v : Byte) : inRange v = true ↔ v.toNat ≤ 127 := decide_eq_true_iff

theorem inRange_iff_topBit (v : Byte) : inRange v = true ↔ v.getLsbD 7 = false := by
  have hmsb : v.getLsbD 7 = decide (128 ≤ v.toNat) := BitVec.msb_eq_decide v
  rw [inRange_iff_le, hmsb, decide_eq_false_iff_not]
  omega

/-- Settles O12. -/
theorem rangeCheckIsTheTopBit : Obligations.RangeCheckIsTheTopBit :=
  fun v => ⟨inRange_iff_le v, inRange_iff_topBit v⟩

theorem State.load_singleton {s : State} (h : 1 ≤ s.params.segDepth) (v : Byte) :
    s.load [v] = { s with seg := v :: List.replicate (s.params.segDepth - 1) 0, cnt := 1 } := by
  rw [State.load, lanesOf_singleton _ h, List.length_singleton]

/-- Settles O13: on success NEW loads the path of one segment. -/
theorem newStartsAPath : Obligations.NewStartsAPath := by
  refine ⟨fun w hop => ?_, fun v s hdepth hv => ?_, fun v s hv => ?_⟩
  · rw [← byteOperand_eq]
    exact decode_of_opcode (i := .new 0) hop
  · rw [exec_new_of_inRange s hv, State.load_singleton hdepth]
    rfl
  · exact exec_new_of_not_inRange s (Nat.not_le.mpr hv)

/-! ### PUSH (40_path_ops.md R47) -/

/-- Settles O14. -/
theorem pushStoresTheWholeByte : Obligations.PushStoresTheWholeByte := by
  refine ⟨fun w hop => ?_, fun v s hc => exec_push_of_ne v hc, fun v s hc => exec_push_of_eq v hc⟩
  rw [← byteOperand_eq]
  exact decode_of_opcode (i := .push 0) hop

/-- Settles O15: below the depth PUSH appends, and lane CNT is one of the store's lanes. -/
theorem pushAppendsToThePath : Obligations.PushAppendsToThePath := by
  intro v s h hc
  have hlane : s.cnt < s.seg.length := h.seg_length ▸ hc
  exact ⟨_, exec_push_of_ne v hc.ne, s.append_path v hlane, s.append_lane_self v hlane,
    fun k hk => s.append_lane_of_ne v k hk, rfl, rfl, rfl⟩

/-! ### Reading back (40_path_ops.md R49, R50) -/

/-- SEG_DEPTH, and with it the count, is at most 255 (00_scope.md R5). -/
theorem State.Inv.cnt_lt_two_pow {s : State} (h : s.Inv) : s.cnt < 2 ^ 64 := by
  obtain ⟨⟨-, hmax⟩, -, hcnt, -⟩ := h
  omega

/-- Settles O16. -/
theorem rdcntAnswersTheCount : Obligations.RdcntAnswersTheCount :=
  ⟨fun _ hop => decode_of_opcode (i := .rdcnt) hop, exec_rdcnt,
    fun _ h => ⟨(BitVec.toNat_ofNat _ _).trans (Nat.mod_eq_of_lt h.cnt_lt_two_pow), h.cnt_le⟩⟩

/-- Settles O17. -/
theorem rdsegReadsOneLane : Obligations.RdsegReadsOneLane := by
  refine ⟨fun w hop => ?_, fun k s hk => exec_rdseg_of_lt hk, fun k s hk => exec_rdseg_of_le hk⟩
  rw [← byteOperand_eq]
  exact decode_of_opcode (i := .rdseg 0) hop

/-! ### The sequence law (40_path_ops.md R51) -/

/-- The cycles in which a host presents these commands, one after another. -/
abbrev presenting (is : List Instr) : List Cycle := is.map fun i => Cycle.command (encode i)

theorem step_of_presenting {s : State} {i : Instr} {is : List Instr} (h : s.host = presenting (i :: is)) :
    step s = exec i s.takeCycle := by
  have hnext : s.nextCycle = Cycle.command (encode i) := State.nextCycle_of_host h
  refine step_of_command ?_ ?_ ?_ <;> rw [hnext]
  · rfl
  · rfl
  · exact decodeOfEncodeIsTheCommand i

/-- PUSH below the depth, seen on the path. -/
theorem State.Inv.exec_push_path {s : State} (h : s.Inv) (hc : s.cnt < s.params.segDepth) (v : Byte) :
    ∃ t, exec (.push v) s = .next t ∧ t.Inv ∧ t.path = s.path ++ [v] ∧ t.rsp = some ⟨.ok, 0⟩ ∧
      t.params = s.params ∧ t.host = s.host :=
  ⟨_, exec_push_of_ne v hc.ne, (h.append v hc).respond .ok 0, s.append_path v (h.seg_length ▸ hc), rfl, rfl, rfl⟩

/-- A sequence of NEW and PUSH on its way: the path is `built`, the host goes on to present PUSH for each of `todo`, all
of it fits the store, and the last response was OK. -/
structure State.Building (s : State) (built todo : List Byte) : Prop where
  inv  : s.Inv
  path : s.path = built
  host : s.host = presenting (todo.map .push)
  fits : built.length + todo.length ≤ s.params.segDepth
  rsp  : s.rsp = some ⟨.ok, 0⟩

theorem State.Building.of_new {s : State} {first : Byte} {rest : List Byte} (h : s.Inv) (hfirst : first.toNat ≤ 127)
    (hfits : rest.length + 1 ≤ s.params.segDepth) (hhost : s.host = presenting (pathCommands (first :: rest))) :
    ∃ t, step s = .next t ∧ t.Building [first] rest := by
  have hfits' : [first].length ≤ s.params.segDepth := (Nat.le_add_left 1 rest.length).trans hfits
  refine ⟨_, (step_of_presenting hhost).trans (exec_new_of_inRange _ hfirst), ?_⟩
  exact {
    inv := (h.takeCycle.load [first] hfits').respond .ok 0
    path := s.takeCycle.load_path [first] hfits'
    host := congrArg List.tail hhost
    fits := Nat.add_comm rest.length 1 ▸ hfits
    rsp := rfl }

theorem State.Building.step_push {s : State} {built todo : List Byte} {v : Byte} (h : s.Building built (v :: todo)) :
    ∃ t, step s = .next t ∧ t.Building (built ++ [v]) todo := by
  obtain ⟨hinv, rfl, hhost, hfits, -⟩ := h
  rw [s.path_length, List.length_cons] at hfits
  have hc : s.cnt < s.params.segDepth := by omega
  obtain ⟨t, ht, htinv, htpath, htrsp, htparams, hthost⟩ := hinv.takeCycle.exec_push_path hc v
  refine ⟨t, (step_of_presenting hhost).trans ht, htinv, htpath, ?_, ?_, htrsp⟩
  · rw [hthost, State.takeCycle_host, hhost]
    rfl
  · rw [htparams, State.takeCycle_params, List.length_append, s.path_length, List.length_singleton]
    omega

/-- The run is anywhere on its way: after `m` more steps `m` more segments stand in the path. -/
theorem State.Building.run {s : State} {built todo : List Byte} (h : s.Building built todo) {m : Nat}
    (hm : m ≤ todo.length) :
    ∃ u, core.run m s = .next u ∧ u.Building (built ++ todo.take m) (todo.drop m) := by
  induction m generalizing s built todo with
  | zero => exact ⟨s, rfl, by simpa using h⟩
  | succ m ih =>
    cases todo with
    | nil => simp at hm
    | cons v todo =>
      obtain ⟨t, ht, hbuild⟩ := h.step_push
      obtain ⟨u, hu, hfinal⟩ := ih hbuild (Nat.le_of_succ_le_succ hm)
      exact ⟨u, (run_of_step ht m).trans hu, by simpa using hfinal⟩

/-- DEC, then PUSH on the path it has loaded. -/
theorem State.Inv.exec_dec_exec_push {s : State} (h : s.Inv) {id : Ident} (hid : lenField id < s.params.segDepth)
    (v : Byte) :
    ∃ t u, exec (.dec id) s = .next t ∧ exec (.push v) t = .next u ∧ u.path = unpack id ++ [v] ∧
      u.rsp = some ⟨.ok, 0⟩ := by
  obtain ⟨t, ht, htpath, -, htparams, -⟩ := execRefinesThePathMachine (.dec id) s h
  have htcnt : t.cnt = lenField id := by rw [← t.path_length, htpath, pathExec, unpack_length]
  have htinv : t.Inv := h.of_effect (effect_of_exec ht)
  obtain ⟨u, hu, -, hupath, hursp, -⟩ := htinv.exec_push_path (by rwa [htcnt, htparams]) v
  exact ⟨t, u, ht, hu, hupath.trans (congrArg (· ++ [v]) htpath), hursp⟩

/-- Settles O18: NEW begins a sequence on its way, whose run stands at its end after a step for each further segment. -/
theorem sequenceLaw : Obligations.SequenceLaw := by
  refine ⟨fun s first rest h hfirst hfits hhost => ?_, fun s id v h hid => h.exec_dec_exec_push hid v⟩
  obtain ⟨t, ht, hbuild⟩ := State.Building.of_new h hfirst hfits hhost
  constructor
  · obtain ⟨u, hu, hend⟩ := hbuild.run (Nat.le_refl rest.length)
    rw [List.take_length, List.drop_length] at hend
    have hcnt : u.cnt = rest.length + 1 := by rw [← u.path_length, hend.path]; rfl
    exact ⟨u, (run_of_step ht _).trans hu, hend.path, hcnt, hend.host⟩
  · intro m hm hle
    obtain ⟨k, rfl⟩ := Nat.exists_eq_add_of_le' hm
    obtain ⟨u, hu, hend⟩ := hbuild.run (Nat.le_of_succ_le_succ hle)
    exact ⟨u, (run_of_step ht k).trans hu, hend.rsp⟩

end Sys2Proof.Machine

/-! Proofs of the statements about the packer (41_encode.md). -/

namespace Sys2Proof.Machine

/-! ### ENC as R56 writes it -/

theorem packSegs_map_range (f : Nat → Byte) {n : Nat} (h : 1 ≤ n) : packSegs ((List.range n).map f) =
    (List.range (n - 1)).foldl (fun acc k => packStep acc (f (k + 1))) (zextSeg (f 0)) := by
  obtain ⟨m, rfl⟩ := Nat.exists_eq_add_of_le' h
  rw [List.range_succ_eq_map, List.map_cons, packSegs, List.map_map, List.foldl_map]
  rfl

theorem pack_path_of_pos {s : State} (h : 1 ≤ s.cnt) :
    pack s.path = (packSegs s.path <<< 4) ||| BitVec.ofNat 64 s.cnt := by
  rw [pack_of_ne_nil s.path (State.path_ne_nil h), s.path_length]

theorem pack_path_of_cnt_eq_zero {s : State} (h : s.cnt = 0) : pack s.path = 0 := by
  rw [State.path_eq_nil h, pack]

/-- Settles O19: the path's first segment is lane 0, and its later ones are the lanes after it. -/
theorem encPacksIteratively : Obligations.EncPacksIteratively := by
  refine ⟨fun w hop => decode_of_opcode (i := .enc) hop, fun s => ?_⟩
  rw [exec_enc]
  split
  case isTrue h0 => rw [pack_path_of_cnt_eq_zero h0]; rfl
  case isFalse h0 =>
    have hpos := Nat.pos_of_ne_zero h0
    rw [pack_path_of_pos hpos, State.path, packSegs_map_range s.lane hpos]
    rfl

/-! ### The closed form (41_encode.md R57): without a width first, then its low 64 bits -/

/-- One more segment shifts the OR of the others by 3, which moves each of their places by 3. -/
theorem natSegs_map_range_eq_or (f : Nat → Byte) (n : Nat) : natSegs ((List.range n).map f) =
    (List.range n).foldl (fun acc k => acc ||| ((f k).toNat <<< (3 * (n - 1 - k)))) 0 := by
  induction n with
  | zero => rfl
  | succ n ih =>
    have hplace : ∀ (acc : Nat), ∀ k ∈ List.range n,
        acc ||| ((f k).toNat <<< (3 * (n - k))) = acc ||| ((f k).toNat <<< (3 * (n - 1 - k)) <<< 3) := by
      intro acc k hk
      have := List.mem_range.mp hk
      rw [← Nat.shiftLeft_add, show 3 * (n - 1 - k) + 3 = 3 * (n - k) by omega]
    have hshift : (List.range n).foldl (fun acc k => acc ||| ((f k).toNat <<< (3 * (n - k)))) 0 =
        (List.range n).foldl (fun acc k => acc ||| ((f k).toNat <<< (3 * (n - 1 - k)))) 0 <<< 3 := by
      rw [List.foldl_ext _ _ 0 hplace]
      exact List.foldl_hom (· <<< 3) (init := 0) fun _ _ => Nat.shiftLeft_or_distrib.symm
    rw [List.range_succ, List.map_append, List.map_singleton, natSegs_concat, ih, List.foldl_append,
      Nat.add_sub_cancel, hshift]
    simp

theorem packSegs_eq_ofNat (p : List Byte) : packSegs p = BitVec.ofNat 64 (natSegs p) :=
  BitVec.eq_of_toNat_eq ((packSegs_toNat p).trans (BitVec.toNat_ofNat _ _).symm)

theorem ofNat_shiftLeft_toNat (v : Byte) (n : Nat) : BitVec.ofNat 64 (v.toNat <<< n) = v.setWidth 64 <<< n := by
  apply BitVec.eq_of_toNat_eq
  simp [Nat.shiftLeft_eq]

theorem packSegs_map_range_eq_or (f : Nat → Byte) (n : Nat) : packSegs ((List.range n).map f) =
    (List.range n).foldl (fun (acc : Ident) k => acc ||| ((f k).setWidth 64 <<< (3 * (n - 1 - k)))) 0 := by
  rw [packSegs_eq_ofNat, natSegs_map_range_eq_or]
  refine (List.foldl_hom (BitVec.ofNat 64) fun acc k => ?_).symm
  rw [BitVec.ofNat_or, ofNat_shiftLeft_toNat]

/-- Settles O20. -/
theorem encClosedForm : Obligations.EncClosedForm := by
  intro s h
  rw [exec_enc, pack_path_of_pos h, State.path, packSegs_map_range_eq_or]
  rfl

/-! ### What an identifier keeps (41_encode.md R60, R61) -/

theorem pack_path_toNat {s : State} (h : 1 ≤ s.cnt) (hl : s.cnt ≤ 18) :
    (pack s.path).toNat = natSegs s.path <<< 4 ||| s.cnt := by
  have hpack := pack_toNat s.path (State.path_ne_nil h) (s.path_length.symm ▸ hl)
  rwa [s.path_length] at hpack

theorem pack_path_lt {s : State} (hl : s.cnt ≤ 18) : (pack s.path).toNat < 2 ^ (3 * (s.cnt - 1) + 12) := by
  rcases Nat.eq_zero_or_pos s.cnt with h0 | h
  · rw [pack_path_of_cnt_eq_zero h0]
    exact Nat.two_pow_pos _
  · have hsegs := natSegs_lt s.path
    rw [s.path_length] at hsegs
    have hshift : natSegs s.path <<< 4 < 2 ^ (3 * (s.cnt - 1) + 8 + 4) := Nat.shiftLeft_lt hsegs
    have hcnt : s.cnt < 2 ^ (3 * (s.cnt - 1) + 8 + 4) :=
      Nat.lt_of_lt_of_le (show s.cnt < 2 ^ 8 by omega) (Nat.pow_le_pow_right (by decide) (by omega))
    rw [pack_path_toNat h hl]
    exact Nat.or_lt_two_pow hshift hcnt

/-- Settles O25: the packer's accumulator is the closed form without a width. -/
theorem encLosesNoBitUpToEighteen : Obligations.EncLosesNoBitUpToEighteen := by
  intro s hl
  refine ⟨pack s.path, exec_enc s, fun h => ?_, pack_path_lt hl⟩
  rw [pack_path_toNat h hl, State.path, natSegs_map_range_eq_or]

/-- Settles O26: DEC loads as many segments as the length field says. -/
theorem lengthFieldIsLengthModSixteen : Obligations.LengthFieldIsLengthModSixteen := by
  intro s t h
  have hlen : lenField (pack s.path) = s.cnt % 16 := by
    rw [lenField_pack s.path (State.path_ne_nil h), s.path_length]
  exact ⟨pack s.path, _, exec_enc s, hlen, exec_dec _ t, (unpack_length _).trans hlen⟩

/-! ### Identifiers of paths in contract (41_encode.md R58) -/

/-- Settles O22. -/
theorem identifierBoundInContract : Obligations.IdentifierBoundInContract := by
  intro s h
  have hlen : s.cnt ≤ 15 := s.path_length ▸ length_le_of_inContract h
  have hbound : (pack s.path).toNat < 2 ^ (3 * s.cnt + 8) := by
    rcases Nat.eq_zero_or_pos s.cnt with h0 | hpos
    · rw [pack_path_of_cnt_eq_zero h0]
      exact Nat.two_pow_pos _
    · exact s.path_length ▸ pack_lt_of_inContract h (State.path_ne_nil hpos)
  exact ⟨pack s.path, exec_enc s, hbound, Nat.lt_of_lt_of_le hbound (Nat.pow_le_pow_right (by decide) (by omega))⟩

theorem byte_eq_of_toNat_eq {w : Nat} {x : BitVec w} {v : Byte} (h : x.toNat = v.toNat) : x.setWidth 8 = v :=
  BitVec.eq_of_toNat_eq (by rw [BitVec.toNat_setWidth, h, BitVec.toNat_mod_cancel])

/-- The unpacker reads each lane back from its field. -/
theorem unpack_pack_path {s : State} (h : InContract s.path = true) : unpack (pack s.path) = s.path := by
  rcases Nat.eq_zero_or_pos s.cnt with h0 | hpos
  · rw [State.path_eq_nil h0]
    rfl
  · have hlen : lenField (pack s.path) = s.cnt := pack_path_lengthField h hpos
    apply List.ext_getElem?
    intro k
    rw [s.path_getElem?]
    split
    case isTrue hk =>
      rw [unpack, unpackWith_getElem? _ _ k (hlen.symm ▸ hk), hlen]
      split
      case isTrue h0 => rw [byte_eq_of_toNat_eq (pack_path_firstField h hpos), h0]
      case isFalse h0 => rw [byte_eq_of_toNat_eq (pack_path_laterField h (Nat.pos_of_ne_zero h0) hk)]
    case isFalse hk => exact List.getElem?_eq_none (by rw [unpack_length, hlen]; omega)

/-- Every path in contract fits a store, so `unpack` is a left inverse of `pack` there. -/
theorem unpack_pack {p : List Byte} (h : InContract p = true) : unpack (pack p) = p := by
  have hp : (State.reset.load p).path = p := State.load_path _ p (length_le_of_inContract h)
  rw [← hp] at h ⊢
  exact unpack_pack_path h

/-- Settles O23: the path is unpacked from its identifier. -/
theorem packIsInjectiveInContract : Obligations.PackIsInjectiveInContract := by
  intro p q hp hq heq
  rw [← unpack_pack hp, heq, unpack_pack hq]

/-! ### Worked values -/

/-- Settles O24. -/
theorem packWorkedValues : Obligations.PackWorkedValues := by
  unfold Obligations.PackWorkedValues
  decide

end Sys2Proof.Machine

/-! Proofs of the statements about the unpacker (42_decode.md). -/

namespace Sys2Proof.Machine

/-! ### The lanes after DEC (42_decode.md R66, R67) -/

theorem unpack_getD_first {id : Ident} (h : 1 ≤ lenField id) :
    (unpack id).getD 0 0 = (id.extractLsb' (3 * lenField id + 1) 7).setWidth 8 := by
  rw [List.getD_eq_getElem?_getD, unpack, unpackWith_getElem? _ id 0 h, if_pos rfl, Option.getD_some]

theorem unpack_getD_later {id : Ident} {k : Nat} (h1 : 1 ≤ k) (hk : k < lenField id) :
    (unpack id).getD k 0 = (id.extractLsb' (3 * (lenField id - k) + 1) 3).setWidth 8 := by
  rw [List.getD_eq_getElem?_getD, unpack, unpackWith_getElem? _ id k hk, if_neg (Nat.ne_of_gt h1), Option.getD_some]

theorem unpack_getD_of_lenField_le {id : Ident} {k : Nat} (hk : lenField id ≤ k) : (unpack id).getD k 0 = 0 :=
  List.getD_eq_default _ _ (by rwa [unpack_length])

theorem State.load_unpack_cnt (s : State) (id : Ident) : (s.load (unpack id)).cnt = lenField id := unpack_length id

section LoadUnpack

variable {s : State} (h : 15 ≤ s.params.segDepth) (id : Ident)

include h

/-- Every unpacked path fits every legal depth (00_scope.md R5). -/
theorem unpack_length_le_segDepth : (unpack id).length ≤ s.params.segDepth := by
  have := lenField_lt id
  rw [unpack_length]
  omega

theorem State.load_unpack_lane (k : Nat) : (s.load (unpack id)).lane k = (unpack id).getD k 0 :=
  s.load_lane _ (unpack_length_le_segDepth h id) k

theorem State.load_unpack_path : (s.load (unpack id)).path = unpack id :=
  s.load_path _ (unpack_length_le_segDepth h id)

theorem State.inContract_load_unpack : InContract (s.load (unpack id)).path = true := by
  rw [State.load_unpack_path h id]
  exact inContract_unpack id

end LoadUnpack

/-- Settles O28: the loaded lanes are the unpacked path, each element of which is one field of the identifier. -/
theorem decLoadsTheFields : Obligations.DecLoadsTheFields := by
  refine ⟨fun w hop => decode_of_opcode (i := .dec 0) hop, fun id s hdepth => ?_⟩
  refine ⟨_, exec_dec id s, ?_⟩
  simp only [State.respond_cnt, State.respond_lane, State.load_unpack_cnt, State.load_unpack_lane hdepth]
  exact ⟨rfl, lanesOf_length _ _, unpack_getD_first, fun _ => unpack_getD_later,
    fun _ => unpack_getD_of_lenField_le, rfl, rfl, rfl⟩

/-- Settles O29: the bounds of the lanes are those of an unpacked path, which is in contract. -/
theorem decResultIsInContract : Obligations.DecResultIsInContract := by
  intro id s hdepth
  have hcontract := State.inContract_load_unpack hdepth id
  have hlane := State.load_unpack_lane hdepth id
  have hcnt := s.load_unpack_cnt id
  have hfirst : ((s.load (unpack id)).lane 0).toNat ≤ 127 := by
    rw [hlane]
    exact first_le_of_inContract (inContract_unpack id)
  have hbeyond : ∀ k, (s.load (unpack id)).cnt ≤ k → (s.load (unpack id)).lane k = 0 := fun k hk => by
    rw [hlane]
    exact unpack_getD_of_lenField_le (hcnt ▸ hk)
  exact ⟨_, exec_dec id s, hcnt, hcnt.trans_le (Nat.le_of_lt_succ (lenField_lt id)), hfirst,
    fun _ => State.later_lane_le hcontract, hbeyond, hcontract⟩

/-! ### The final shift (42_decode.md R69) -/

/-- No extraction follows the final shift, so its amount appears in no element. -/
theorem extractSegs_finalShift_congr (f g n : Nat) (rem : Ident) : extractSegs f n rem = extractSegs g n rem := by
  apply List.ext_getElem?
  intro j
  rw [extractSegs_getElem?, extractSegs_getElem?]

/-- Settles O30. -/
theorem finalShiftIsDead : Obligations.FinalShiftIsDead :=
  fun n _ => congrArg List.reverse (extractSegs_finalShift_congr n Config.strideW _ _)

/-! ### Round trips (42_decode.md R70, R71) -/

theorem unpack_eq_nil {id : Ident} (h : lenField id = 0) : unpack id = [] :=
  List.eq_nil_of_length_eq_zero ((unpack_length id).trans h)

/-- The mask up to the field of lane 0 is a remainder: for a length of at most 15 it has no bit above bit 52. -/
theorem and_fieldMask_toNat (id : Ident) {l : Nat} (hl : l < 16) :
    (id &&& BitVec.ofNat 64 (2 ^ (3 * l + 8) - 1)).toNat = id.toNat % 2 ^ (3 * l + 8) := by
  have hpow : 2 ^ (3 * l + 8) ≤ 2 ^ 64 := Nat.pow_le_pow_right (by decide) (by omega)
  have hmask : 2 ^ (3 * l + 8) - 1 < 2 ^ 64 := Nat.lt_of_lt_of_le (Nat.sub_one_lt (Nat.two_pow_pos _).ne') hpow
  rw [BitVec.toNat_and, BitVec.toNat_ofNat, Nat.mod_eq_of_lt hmask, Nat.and_two_pow_sub_one_eq_mod]

theorem pack_unpack (id : Ident) : pack (unpack id) =
    if lenField id = 0 then 0 else id &&& BitVec.ofNat 64 (2 ^ (3 * lenField id + 8) - 1) := by
  split
  case isTrue h0 => rw [unpack_eq_nil h0, pack]
  case isFalse h0 =>
    apply BitVec.eq_of_toNat_eq
    rw [pack_unpack_toNat (Nat.pos_of_ne_zero h0), and_fieldMask_toNat id (lenField_lt id)]

theorem pack_unpack_eq_self_iff (id : Ident) : pack (unpack id) = id ↔ Canonical id :=
  ⟨fun h => h ▸ canonical_pack (inContract_unpack id), pack_unpack_of_canonical⟩

/-- Settles O31: ENC packs the path that DEC has unpacked. -/
theorem decThenEncClearsStrayBits : Obligations.DecThenEncClearsStrayBits := by
  intro id s hdepth
  refine ⟨_, pack (unpack id), exec_dec id s, ?_, pack_unpack id, pack_unpack_eq_self_iff id⟩
  rw [exec_enc, State.respond_path, State.load_unpack_path hdepth id]
  rfl

/-- Settles O32: in contract `unpack` is a left inverse of `pack`. -/
theorem encThenDecIsTheSamePath : Obligations.EncThenDecIsTheSamePath := by
  refine ⟨fun s t h hdepth => ?_, rfl, rfl⟩
  exact ⟨pack s.path, _, exec_enc s, exec_dec _ t, (State.load_unpack_path hdepth _).trans (unpack_pack h)⟩

/-! ### A zero length field (42_decode.md R74) -/

theorem lenField_eq_zero {id : Ident} (h : id.extractLsb' 0 4 = 0) : lenField id = 0 := congrArg BitVec.toNat h

theorem State.load_nil (s : State) :
    s.load [] = { s with seg := List.replicate s.params.segDepth 0, cnt := 0 } := by
  rw [State.load, lanesOf_nil, List.length_nil]

/-- Settles O35: a path in contract packs to a canonical identifier, and of these only 0 has a zero length field. -/
theorem zeroLengthFieldEmptiesThePath : Obligations.ZeroLengthFieldEmptiesThePath := by
  constructor
  · intro id s h0
    rw [exec_dec, unpack_eq_nil (lenField_eq_zero h0), State.load_nil]
    rfl
  · intro p hp h0
    rcases canonical_pack hp with hzero | ⟨hpos, -⟩
    · exact hzero
    · exact absurd (lenField_eq_zero h0) (Nat.ne_of_gt hpos)

/-! ### Worked values -/

/-- Settles O34. -/
theorem unpackWorkedValues : Obligations.UnpackWorkedValues := by
  unfold Obligations.UnpackWorkedValues
  decide

end Sys2Proof.Machine

/-! Proofs of the statements about the optional decimal concatenation (43_idconcat.md). -/

namespace Sys2Proof.Machine

/-! ### The digit string as a multiply-and-add (43_idconcat.md R76) -/

theorem catDigits_concat (p : List Byte) (v : Byte) : catDigits (p ++ [v]) = catDigits p ++ decDigits v := by
  rw [catDigits, List.flatMap_append, List.flatMap_singleton, catDigits]

theorem catDigits_eq_flatMap_textDigits (p : List Byte) : catDigits p = p.flatMap fun v => textDigits v.toNat :=
  congrArg p.flatMap (funext decDigits_eq)

/-- One more segment of R76's arithmetic form: its digits' places, then its value. -/
def catStep (m : Nat) (v : Byte) : Nat :=
  m * 10 ^ (if v.toNat ≤ 9 then 1 else if v.toNat ≤ 99 then 2 else 3) + v.toNat

theorem digitsValue_catDigits_concat (p : List Byte) (v : Byte) :
    digitsValue (catDigits (p ++ [v])) = catStep (digitsValue (catDigits p)) v := by
  rw [catDigits_concat, digitsValue_append, decDigits_length, digitsValue_decDigits, catStep]

theorem digitsValue_catDigits_eq_foldl (p : List Byte) : digitsValue (catDigits p) = p.foldl catStep 0 := by
  induction p using List.reverseRecOn with
  | nil => rfl
  | append_singleton p v ih => rw [digitsValue_catDigits_concat, ih, List.foldl_concat]

/-- Settles O36: the number is the value of the path's digit string, which the arithmetic form gives too. -/
theorem catReadsTheDigitString : Obligations.CatReadsTheDigitString := by
  refine ⟨fun w hop => decode_of_opcode (i := .cat) hop, fun s h => ?_⟩
  refine ⟨digitsValue (catDigits s.path), ?_, digitsValue_catDigits_eq_foldl s.path, exec_cat_of_present h⟩
  rw [digitsValue_eq_ofDigits, catDigits_eq_flatMap_textDigits]
  rfl

/-! ### Stepwise overflow (43_idconcat.md R79) -/

/-- The multiply-and-add never shrinks, so a step that overflows is never made good by a later one. -/
theorem le_catStep (m : Nat) (v : Byte) : m ≤ catStep m v :=
  (Nat.le_mul_of_pos_right m (Nat.pow_pos (by decide))).trans (Nat.le_add_right _ _)

/-- The number, where it fits 64 bits. -/
def fitting (n : Nat) : Option Nat := if n < 2 ^ 64 then some n else none

theorem fitting_bind_catStep (m : Nat) (v : Byte) :
    ((fitting m).bind fun m => fitting (catStep m v)) = fitting (catStep m v) := by
  by_cases hm : m < 2 ^ 64
  · rw [fitting, if_pos hm, Option.bind_some]
  · have hstep : ¬catStep m v < 2 ^ 64 := fun h => hm ((le_catStep m v).trans_lt h)
    rw [fitting, if_neg hm, Option.bind_none, fitting, if_neg hstep]

/-- A fold that stops at the first overflow gives what one test of the final number gives. -/
theorem foldl_fitting_catStep (p : List Byte) :
    p.foldl (fun acc v => acc.bind fun m => fitting (catStep m v)) (some 0) = fitting (p.foldl catStep 0) := by
  induction p using List.reverseRecOn with
  | nil => rfl
  | append_singleton p v ih => rw [List.foldl_concat, ih, fitting_bind_catStep, List.foldl_concat]

theorem catValue_eq_fitting (p : List Byte) :
    catValue p = ((fitting (p.foldl catStep 0)).map (BitVec.ofNat 64)).getD 0 := by
  rw [← digitsValue_catDigits_eq_foldl, catValue, fitting]
  by_cases h : digitsValue (catDigits p) < 2 ^ 64
  · rw [if_neg (Nat.not_lt.mpr (Nat.le_sub_one_of_lt h)), if_pos h]
    rfl
  · rw [if_pos (by omega), if_neg h]
    rfl

/-- Settles O37. -/
theorem catByStepwiseOverflow : Obligations.CatByStepwiseOverflow := by
  intro s h
  rw [exec_cat_of_present h, catValue_eq_fitting, ← foldl_fitting_catStep]
  rfl

/-! ### HAS_CAT (43_idconcat.md R75) -/

/-- The same state on a block with or without CAT. -/
def State.withHasCat (s : State) (b : Bool) : State := { s with params := { s.params with hasCat := b } }

/-- The conditions of the other commands read the depth, the count and the operand, none of which HAS_CAT changes. -/
theorem exec_withHasCat {i : Instr} (hi : i ≠ .cat) (s : State) (b : Bool) :
    ∃ t, exec i s = .next t ∧ exec i (s.withHasCat b) = .next (t.withHasCat b) := by
  cases i with
  | new v =>
    by_cases hv : v.toNat ≤ 127
    · exact ⟨_, exec_new_of_inRange s hv, exec_new_of_inRange _ hv⟩
    · exact ⟨_, exec_new_of_not_inRange s hv, exec_new_of_not_inRange _ hv⟩
  | push v =>
    by_cases hc : s.cnt = s.params.segDepth
    · exact ⟨_, exec_push_of_eq v hc, exec_push_of_eq (s := s.withHasCat b) v hc⟩
    · exact ⟨_, exec_push_of_ne v hc, exec_push_of_ne (s := s.withHasCat b) v hc⟩
  | enc => exact ⟨_, exec_enc s, exec_enc _⟩
  | dec id => exact ⟨_, exec_dec id s, exec_dec id _⟩
  | rdcnt => exact ⟨_, exec_rdcnt s, exec_rdcnt _⟩
  | rdseg k =>
    rcases Nat.lt_or_ge k.toNat s.cnt with hk | hk
    · exact ⟨_, exec_rdseg_of_lt hk, exec_rdseg_of_lt (s := s.withHasCat b) hk⟩
    · exact ⟨_, exec_rdseg_of_le hk, exec_rdseg_of_le (s := s.withHasCat b) hk⟩
  | cat => exact absurd rfl hi

/-- Settles O39. -/
theorem hasCatDecidesOnlyCat : Obligations.HasCatDecidesOnlyCat :=
  ⟨fun _ h => exec_cat_of_absent h, fun _ s b hi => exec_withHasCat hi s b⟩

/-! ### Collisions (43_idconcat.md R77) -/

/-- Both digit strings are `123`. -/
theorem catValue_collision : catValue [1, 23] = 123 ∧ catValue [12, 3] = 123 := by decide

/-- Settles O38. -/
theorem catCollides : Obligations.CatCollides := by
  refine ⟨fun s h hpath => ?_, by decide, by decide⟩
  obtain ⟨hleft, hright⟩ := catValue_collision
  have hvalue : catValue s.path = 123 := by
    rcases hpath with hpath | hpath
    · exact hpath ▸ hleft
    · exact hpath ▸ hright
  rw [exec_cat_of_present h, hvalue]
  rfl

end Sys2Proof.Machine

/-! Proofs of the statements about errors and quiet cycles (60_exceptions.md). -/

namespace Sys2Proof.Machine

/-! ### The condition of each status (60_exceptions.md R82, R84 to R86) -/

/-- The status that a command is answered with. -/
def answerStatus (s : State) : Instr → Status
  | .new v => if v.toNat ≤ 127 then .ok else .rangeExceeded
  | .push _ => if s.cnt = s.params.segDepth then .full else .ok
  | .enc => .ok
  | .dec _ => .ok
  | .rdcnt => .ok
  | .rdseg k => if s.cnt ≤ k.toNat then .index else .ok
  | .cat => if s.params.hasCat then .ok else .illegal

theorem exec_answerStatus (i : Instr) (s : State) :
    ∃ t r, exec i s = .next t ∧ t.rsp = some r ∧ r.status = answerStatus s i := by
  cases i with
  | new v =>
    by_cases hv : v.toNat ≤ 127
    · exact ⟨_, _, exec_new_of_inRange s hv, rfl, (if_pos hv).symm⟩
    · exact ⟨_, _, exec_new_of_not_inRange s hv, rfl, (if_neg hv).symm⟩
  | push v =>
    by_cases hc : s.cnt = s.params.segDepth
    · exact ⟨_, _, exec_push_of_eq v hc, rfl, (if_pos hc).symm⟩
    · exact ⟨_, _, exec_push_of_ne v hc, rfl, (if_neg hc).symm⟩
  | enc => exact ⟨_, _, exec_enc s, rfl, rfl⟩
  | dec id => exact ⟨_, _, exec_dec id s, rfl, rfl⟩
  | rdcnt => exact ⟨_, _, exec_rdcnt s, rfl, rfl⟩
  | rdseg k =>
    by_cases hk : s.cnt ≤ k.toNat
    · exact ⟨_, _, exec_rdseg_of_le hk, rfl, (if_pos hk).symm⟩
    · exact ⟨_, _, exec_rdseg_of_lt (Nat.lt_of_not_le hk), rfl, (if_neg hk).symm⟩
  | cat =>
    cases hcat : s.params.hasCat with
    | true => exact ⟨_, _, exec_cat_of_present hcat, rfl, by simp [answerStatus, hcat]⟩
    | false => exact ⟨_, _, exec_cat_of_absent hcat, rfl, by simp [answerStatus, hcat]⟩

theorem answerStatus_eq_rangeExceeded_iff (i : Instr) (s : State) :
    answerStatus s i = .rangeExceeded ↔ ∃ v, i = .new v ∧ 127 < v.toNat := by
  cases i <;> simp [answerStatus, ite_eq_iff]

theorem answerStatus_eq_full_iff (i : Instr) (s : State) :
    answerStatus s i = .full ↔ ∃ v, i = .push v ∧ s.cnt = s.params.segDepth := by
  cases i <;> simp [answerStatus, ite_eq_iff]

theorem answerStatus_eq_index_iff (i : Instr) (s : State) :
    answerStatus s i = .index ↔ ∃ k, i = .rdseg k ∧ s.cnt ≤ k.toNat := by
  cases i <;> simp [answerStatus, ite_eq_iff]

theorem answerStatus_eq_illegal_iff (i : Instr) (s : State) :
    answerStatus s i = .illegal ↔ i = .cat ∧ s.params.hasCat = false := by
  cases i <;> simp [answerStatus, ite_eq_iff]

/-- Settles O40. -/
theorem statusConditions : Obligations.StatusConditions := by
  intro i s
  obtain ⟨t, r, ht, hr, hst⟩ := exec_answerStatus i s
  refine ⟨t, r, ht, hr, ?_⟩
  rw [hst]
  exact ⟨answerStatus_eq_rangeExceeded_iff i s, answerStatus_eq_full_iff i s, answerStatus_eq_index_iff i s,
    answerStatus_eq_illegal_iff i s⟩

/-! ### Reserved opcodes (60_exceptions.md R86) -/

/-- The opcode is reserved on a block with these parameters (30_encoding.md R40; 43_idconcat.md R75). -/
def ReservedOn (p : Params) (op : BitVec 4) : Prop :=
  op.toNat = 0 ∨ 8 ≤ op.toNat ∨ (op.toNat = 7 ∧ p.hasCat = false)

theorem step_of_reservedOn {s : State} (hrst : s.nextCycle.rst = false) (hvalid : s.nextCycle.cmdValid = true)
    (hop : ReservedOn s.params (opField s.nextCycle.cmd)) : step s = .next (s.takeCycle.raise .illegal) := by
  rcases hop with h0 | h8 | ⟨h7, hcat⟩
  · exact step_of_rejected hrst hvalid (decode_of_opcode_reserved _ (.inl h0))
  · exact step_of_rejected hrst hvalid (decode_of_opcode_reserved _ (.inr h8))
  · have hdec := decode_of_opcode (i := .cat) (BitVec.eq_of_toNat_eq h7)
    exact (step_of_command hrst hvalid hdec).trans (exec_cat_of_absent hcat)

/-- Only an absent CAT is a command answered Illegal, and its opcode is reserved. -/
theorem step_of_not_reservedOn {s : State} (hrst : s.nextCycle.rst = false) (hvalid : s.nextCycle.cmdValid = true)
    (hop : ¬ReservedOn s.params (opField s.nextCycle.cmd)) :
    ∃ t r, step s = .next t ∧ t.rsp = some r ∧ r.status ≠ .illegal := by
  have ⟨h1, h7⟩ : 1 ≤ (opField s.nextCycle.cmd).toNat ∧ (opField s.nextCycle.cmd).toNat ≤ 7 := by
    unfold ReservedOn at hop
    omega
  obtain ⟨i, hdec, hi⟩ := decode_of_opcode_used _ h1 h7
  obtain ⟨t, r, ht, hr, hst⟩ := exec_answerStatus i s.takeCycle
  refine ⟨t, r, (step_of_command hrst hvalid hdec).trans ht, hr, fun hillegal => hop ?_⟩
  obtain ⟨rfl, hcat⟩ := (answerStatus_eq_illegal_iff i _).mp (hst.symm.trans hillegal)
  exact .inr (.inr ⟨congrArg BitVec.toNat hi.symm, hcat⟩)

/-- Settles O8. -/
theorem reservedOpcodeIsIllegal : Obligations.ReservedOpcodeIsIllegal := by
  intro s c rest hhost hrst hvalid
  obtain rfl := State.nextCycle_of_host hhost
  refine ⟨fun hop => ?_, step_of_not_reservedOn hrst hvalid⟩
  rw [step_of_reservedOn hrst hvalid hop, State.takeCycle_of_host hhost]
  rfl

/-! ### What an error leaves unchanged (60_exceptions.md R83) -/

theorem Effect.data_eq_zero_of_failed {i : Instr} {s t : State} {r : Response} (h : Effect i s t)
    (hr : t.rsp = some r) (hf : r.status ≠ .ok) : r.data = 0 := by
  cases h with
  | raised e => cases hr; rfl
  | answered | loaded | appended => cases hr; exact absurd rfl hf

/-- Settles O41: an error is answered in a cycle with a reserved opcode or with a failed command, and a cycle of another
kind has no response. -/
theorem errorsChangeNothing : Obligations.ErrorsChangeNothing := by
  intro s t r hstep hr hf
  cases effect_of_step hstep with
  | reset | quiet => cases hr
  | rejected => cases hr; exact ⟨rfl, rfl⟩
  | command i _ _ _ _ he => exact ⟨he.data_eq_zero_of_failed hr hf, he.eq_withRsp_of_failed hr hf⟩

/-! ### Quiet cycles (60_exceptions.md R92) -/

theorem State.nextCycle_of_host_nil {s : State} (h : s.host = []) : s.nextCycle = Cycle.quiet := by
  rw [State.nextCycle, h, List.headD_nil]

theorem State.takeCycle_of_host_nil {s : State} (h : s.host = []) : s.takeCycle = s := by
  rw [State.takeCycle, h, List.tail_nil, ← h]

/-- Settles O10. -/
theorem quietCycleHoldsTheStore : Obligations.QuietCycleHoldsTheStore := by
  constructor
  · intro s c rest hhost hrst hvalid
    obtain rfl := State.nextCycle_of_host hhost
    rw [step_of_quiet hrst hvalid, State.takeCycle_of_host hhost]
    rfl
  · intro s hhost
    have hquiet := State.nextCycle_of_host_nil hhost
    rw [step_of_quiet (hquiet ▸ rfl) (hquiet ▸ rfl), State.takeCycle_of_host_nil hhost]
    rfl

end Sys2Proof.Machine

/-! Proofs of the statements about reset and about what writes the store (70_reset_and_hazards.md). -/

namespace Sys2Proof.Machine

/-! ### What writes the store (70_reset_and_hazards.md R97) -/

/-- Of the four effects only a load and an append write the store, and they are those of NEW, DEC and PUSH. -/
theorem Effect.writer_of_store_ne {i : Instr} {s t : State} (h : Effect i s t)
    (hne : t.seg ≠ s.seg ∨ t.cnt ≠ s.cnt) : (∃ v, i = .new v) ∨ (∃ v, i = .push v) ∨ (∃ id, i = .dec id) := by
  cases h with
  | raised | answered => simp at hne
  | loaded p _ hi => exact hi.imp_right .inr
  | appended v _ hi => exact .inr (.inl ⟨v, hi⟩)

/-- Settles O44: a quiet cycle and a reserved opcode keep the store, and a command writes it only as a writer. -/
theorem onlyNewPushDecAndResetWrite : Obligations.OnlyNewPushDecAndResetWrite := by
  intro s t c rest hhost hstep hne
  obtain rfl := State.nextCycle_of_host hhost
  cases effect_of_step hstep with
  | reset hrst => exact .inl hrst
  | quiet | rejected => simp at hne
  | command i _ _ hvalid hdec he => exact .inr ⟨hvalid, i, hdec, he.writer_of_store_ne hne⟩

/-! ### A reset cycle and the reset state (70_reset_and_hazards.md R93) -/

theorem State.applyReset_eq (s : State) :
    s.applyReset = { s with seg := List.replicate s.params.segDepth 0, cnt := 0, rsp := none } := by
  rw [State.applyReset, State.load_nil]

theorem exec_clr (s : State) : exec .clr s = .next { s with
    seg := List.replicate s.params.segDepth 0, cnt := 0, rsp := some ⟨.ok, 0⟩ } := by
  obtain ⟨hdec, -⟩ := zeroLengthFieldEmptiesThePath
  exact hdec 0 s rfl

/-- Settles O9. -/
theorem resetCycleGivesTheEmptyPath : Obligations.ResetCycleGivesTheEmptyPath := by
  intro s c rest hhost hrst
  obtain rfl := State.nextCycle_of_host hhost
  refine ⟨?_, exec_clr s⟩
  rw [step_of_reset hrst, State.applyReset_eq, State.takeCycle_of_host hhost]

/-- Settles O45. -/
theorem resetStateIsTheEmptyPath : Obligations.ResetStateIsTheEmptyPath :=
  ⟨rfl, rfl, State.path_eq_nil rfl, rfl, rfl⟩

/-! ### Commands directly after reset (70_reset_and_hazards.md R95) -/

@[simp] theorem State.applyReset_path (s : State) : s.applyReset.path = [] := State.path_eq_nil rfl

/-- Reset establishes the store's invariants, whatever the lanes and CNT held before (10_state.md R16). -/
theorem State.inv_applyReset {s : State} (h : s.params.Valid) : s.applyReset.Inv := by
  refine ⟨h, lanesOf_length _ _, Nat.zero_le _, fun k _ _ => ?_⟩
  exact s.load_lane [] (Nat.zero_le _) k

/-- Settles O46: the readers answer for the empty path, and the writers find a store that keeps the invariants. -/
theorem everyCommandWorksAfterReset : Obligations.EveryCommandWorksAfterReset := by
  rintro s r hvalid rfl
  have hinv : s.applyReset.Inv := State.inv_applyReset hvalid
  refine ⟨?enc, exec_rdcnt _, fun k => exec_rdseg_of_le (Nat.zero_le _), fun v => ?push, fun v hv => ?new,
    fun id => ?dec, fun hcat => ?cat⟩
  case enc =>
    rw [exec_enc, State.applyReset_path]
    rfl
  case push =>
    have hroom : s.applyReset.cnt < s.applyReset.params.segDepth := by
      have := hinv.segDepth_ge
      rw [State.applyReset_cnt]
      omega
    obtain ⟨t, ht, -, hpath, hrsp, -⟩ := hinv.exec_push_path hroom v
    exact ⟨t, ht, by rw [hpath, State.applyReset_path, List.nil_append], hrsp⟩
  case new => exact ⟨_, exec_new_of_inRange _ hv, hinv.load_path (by simp), rfl⟩
  case dec => exact ⟨_, exec_dec id _, State.load_unpack_path hinv.segDepth_ge id, rfl⟩
  case cat =>
    rw [exec_cat_of_present hcat, State.applyReset_path]
    rfl

end Sys2Proof.Machine

/-! Proof of the statement about the packer that masks on the way in (93_implementation_defined.md U2). -/

namespace Sys2Proof.Machine

/-- A mask of `w` bits on the way in loses nothing of a segment that fits in them. -/
theorem setWidth_extractLsb'_eq_zextSeg {v : Byte} {w : Nat} (hv : v.toNat < 2 ^ w) :
    (v.extractLsb' 0 w).setWidth 64 = zextSeg v := by
  apply BitVec.eq_of_toNat_eq
  rw [zextSeg, BitVec.toNat_setWidth, BitVec.toNat_setWidth, BitVec.extractLsb'_toNat, Nat.shiftRight_zero,
    Nat.mod_eq_of_lt hv]

theorem maskedPackStep_of_le (acc : Ident) {v : Byte} (hv : v.toNat ≤ 7) : maskedPackStep acc v = packStep acc v := by
  rw [maskedPackStep, packStep, setWidth_extractLsb'_eq_zextSeg (Nat.lt_succ_of_le hv)]

/-- Settles O27: the contract bounds each segment by its mask, so steps 2 and 3 of the two packers agree. -/
theorem maskingMakesNoDifferenceInContract : Obligations.MaskingMakesNoDifferenceInContract := by
  intro p h
  cases p with
  | nil => rfl
  | cons first rest =>
    obtain ⟨-, hfirst, hrest⟩ := inContract_cons_iff.mp h
    rw [maskedPack, pack, packSegs, setWidth_extractLsb'_eq_zextSeg (Nat.lt_succ_of_le hfirst),
      List.foldl_ext _ packStep _ fun acc v hv => maskedPackStep_of_le acc (hrest v hv)]

end Sys2Proof.Machine
